-- ==== Sys2Proof/Word.lean ====
section
/-! DEFINITION. The widths of SHA256-CORE's values (00_scope.md R6, R7; 30_encoding.md R71). -/

namespace Sys2Proof

/-- A Word32: an unsigned integer below 2^32, bit 0 the least significant (R7). -/
abbrev Word := BitVec 32

/-- A byte, 0..255 (R7). -/
abbrev Byte := BitVec 8

/-- A byte offset in the register space: BUS_ADDR_BITS = 8 (R6, R50). -/
abbrev Offset := BitVec 8

/-- A TX43 host transaction word (R71). -/
abbrev Tx := BitVec 43

/-- A transaction's descriptor DESC = TX[42:32] (R71). -/
abbrev Desc := BitVec 11

/-- The round counter's width, ROUND_COUNTER_BITS = 7 (R6, R27). -/
abbrev Counter := BitVec 7

end Sys2Proof
end

