-- ==== Sys2Proof/Machine/Arith.lean ====
section
/-! DEFINITION. The 32-bit modular arithmetic unit and the six SHA-256 functions (40_arith.md R100-R115). None of them
writes a flag (R114). -/

namespace Sys2Proof.Machine

/-- ADD32: (x + y) mod 2^32, the carry out of bit 31 discarded (R101). -/
def add32 (x y : Word) : Word := BitVec.ofNat 32 (x.toNat + y.toNat)

/-- A sum of several words, a chain of ADD32 (R102). -/
def sum32 (xs : List Word) : Word := xs.foldl add32 0#32

/-- ROTR: circular right rotation, 1 ≤ n ≤ 31 (R103). -/
def rotr (x : Word) (n : Nat) : Word := (x >>> n) ||| (x <<< (32 - n))

/-- SHR: logical right shift (R104). -/
def shr (x : Word) (n : Nat) : Word := x >>> n

/-- Ch, choose (R108). -/
def ch (x y z : Word) : Word := (x &&& y) ^^^ (~~~x &&& z)

/-- Maj, majority (R109). -/
def maj (x y z : Word) : Word := (x &&& y) ^^^ (x &&& z) ^^^ (y &&& z)

/-- Σ0 (R110). -/
def bigSigma0 (x : Word) : Word := rotr x 2 ^^^ rotr x 13 ^^^ rotr x 22

/-- Σ1 (R111). -/
def bigSigma1 (x : Word) : Word := rotr x 6 ^^^ rotr x 11 ^^^ rotr x 25

/-- σ0 (R112). -/
def smallSigma0 (x : Word) : Word := rotr x 7 ^^^ rotr x 18 ^^^ shr x 3

/-- σ1 (R113). -/
def smallSigma1 (x : Word) : Word := rotr x 17 ^^^ rotr x 19 ^^^ shr x 10

end Sys2Proof.Machine
end

