-- ==== Sys2Proof/Machine/Compression.lean ====
section
/-! DEFINITION. The pure functions the engine computes: message schedule, round, compression of a block, chaining
(41_schedule.md R121-R123, 42_compression.md R130-R132). -/

namespace Sys2Proof.Machine

/-- W[t] from W[t-2], W[t-7], W[t-15], W[t-16] (R121). -/
def expandWord (w2 w7 w15 w16 : Word) : Word :=
  sum32 [smallSigma1 w2, w7, smallSigma0 w15, w16]

/-- The schedule of block `m` with the words below 16 + n expanded; the others are not yet meant. -/
def scheduleUpTo (m : Vector Word 16) : Nat → Vector Word 64
  | 0 => Vector.ofFn fun j => if h : j.val < 16 then m[j.val] else 0#32
  | n + 1 =>
    let w := scheduleUpTo m n
    if h : 16 + n < 64 then
      w.set (16 + n) (expandWord w[16 + n - 2] w[16 + n - 7] w[16 + n - 15] w[16 + n - 16])
    else w

/-- Schedule(M), all 64 words (R123). -/
def schedule (m : Vector Word 16) : Vector Word 64 := scheduleUpTo m 48

/-- Round(t, (a, …, h), W[t]): every new value is made from the old ones (R130). -/
def sha256Round (t : Fin 64) (v : Vector Word 8) (w : Word) : Vector Word 8 :=
  let t1 := sum32 [v[7], bigSigma1 v[4], ch v[4] v[5] v[6], K[t], w]
  let t2 := sum32 [bigSigma0 v[0], maj v[0] v[1] v[2]]
  #v[add32 t1 t2, v[0], v[1], v[2], add32 v[3] t1, v[4], v[5], v[6]]

/-- The working variables after rounds 0 .. n-1 with the schedule `w` (R131). -/
def roundsUpTo (w : Vector Word 64) (v : Vector Word 8) : Nat → Vector Word 8
  | 0 => v
  | n + 1 => if h : n < 64 then sha256Round ⟨n, h⟩ (roundsUpTo w v n) w[n] else roundsUpTo w v n

/-- Adding the working variables back into the state, word by word (R131, R134). -/
def addState (h v : Vector Word 8) : Vector Word 8 := Vector.ofFn fun i => add32 h[i] v[i]

/-- Compress(Hin, M) (R131). -/
def compress (h : Vector Word 8) (m : Vector Word 16) : Vector Word 8 :=
  addState h (roundsUpTo (schedule m) h 64)

/-- Chain(H, blocks) (R132). -/
def chain (h : Vector Word 8) : List (Vector Word 16) → Vector Word 8
  | [] => h
  | m :: rest => chain (compress h m) rest

end Sys2Proof.Machine
end

