-- ==== Sys2Proof/Syntax.lean ====
section
/-! DEFINITION. What a host can say to the core: the seven operations of the opcode table, the registers they name,
the faults a transaction can raise, and the assembler's lines (30_encoding.md R70-R79). -/

namespace Sys2Proof

/-- The ten fault codes, in the order of their numbers 1..10 (60_exceptions.md R201). -/
inductive FaultCode where
  | badSize
  | misaligned
  | unmapped
  | busyAccess
  | writeToReadOnly
  | readOfWriteOnly
  | reservedBits
  | illegalCommand
  | hashNotValid
  | blockNotWritten
  deriving DecidableEq, Repr

/-- A register of the register space (20_memory.md R51). -/
inductive Reg where
  | ctrl
  | status
  | blk (j : Fin 16)
  | hash (i : Fin 8)
  deriving DecidableEq, Repr

/-- The host operations, one constructor per row of the opcode table (R75). A read carries its transaction's WDATA
field: no operation uses it, but a fault records it (R74), so no bit of the transaction is lost. The operand types
admit exactly the operands the encoding admits. -/
inductive Instr where
  /-- `NOP`: a write of 0 to CTRL (R151). -/
  | nop
  /-- `INIT`: a write of 1 to CTRL (R152). -/
  | init
  /-- `COMPRESS`: a write of 2 to CTRL (R153). -/
  | compress
  /-- `RD_STATUS`: a read of STATUS (R154). -/
  | rdStatus (wdata : Word)
  /-- `WR_BLK`: a write of BLK[j] (R155). -/
  | wrBlk (j : Fin 16) (wdata : Word)
  /-- `RD_BLK`: a read of BLK[j] (R156). -/
  | rdBlk (j : Fin 16) (wdata : Word)
  /-- `RD_HASH`: a read of HASH[i] (R157). -/
  | rdHash (i : Fin 8) (wdata : Word)
  deriving DecidableEq, Repr

/-- One row of the opcode table: a transaction is the row's when `TX & mask = pattern` (R75). -/
structure OpcodeRow where
  mnemonic : String
  mask     : Tx
  pattern  : Tx
  deriving DecidableEq, Repr

/-- The access sizes the assembler can spell: `WR.B`/`RD.B`, `WR.H`/`RD.H`, `WR`/`RD` (R78). -/
inductive AccessSize where
  | byte
  | half
  | word
  deriving DecidableEq, Repr

/-- A register as an assembler line spells it, with the number as it was written (R78). -/
inductive RegName where
  | ctrl
  | status
  | blk (n : Nat)
  | hash (n : Nat)
  | raw (offset : Nat)
  deriving DecidableEq, Repr

/-- An assembler line: `WR <reg>, <value>` or `RD <reg>` (R78). -/
inductive AsmLine where
  | wr (size : AccessSize) (reg : RegName) (value : Nat)
  | rd (size : AccessSize) (reg : RegName)
  deriving DecidableEq, Repr

/-- The assembler's pseudo-instructions (R79). -/
inductive Pseudo where
  | nop
  | init
  | compress
  | poll
  | ldblk (m : Vector Word 16)
  | block (m : Vector Word 16)
  | rddigest
  deriving DecidableEq, Repr

end Sys2Proof
end

