-- ==== Sys2Proof/Machine/State.lean ====
section
/-! DEFINITION. The state of one SHA256-CORE (10_state.md R20) and, beside it, the host's side of its bus: what the
host has still to issue, the order in which host and engine move, and what the last access returned. -/

namespace Sys2Proof.Machine

/-- What FAULT records: the code, the transaction's descriptor and its WDATA (R34, 60_exceptions.md R201). -/
structure FaultRecord where
  code  : FaultCode
  desc  : Desc
  wdata : Word
  deriving DecidableEq, Repr

/-- The two agents (00_scope.md R11). -/
inductive Agent where
  | host
  | engine
  deriving DecidableEq, Repr

/-- What the host does next: issue one transaction, or the loop `POLL`, which reads STATUS until BUSY = 0
(30_encoding.md R79). -/
inductive HostLine where
  | tx (word : Tx)
  | poll
  deriving DecidableEq, Repr

/-- The complete state of one core (R20). `none` is the spec's ⊥, "no value" (00_scope.md R9). K and H0 are constants
(R12, R31) and stand in Machine/Rom.lean; CTRL holds nothing (R32); STATUS is a view (R33). -/
structure ShaState where
  /-- HASH[0..7], the hash-state register file (R21). -/
  hash   : Vector (Option Word) 8
  /-- HVALID (R22). -/
  hvalid : Bool
  /-- The working registers a, b, c, d, e, f, g, h as v[0..7] (R23, R24). -/
  v      : Vector (Option Word) 8
  /-- W[0..63], the message-schedule store (R25). -/
  w      : Vector (Option Word) 64
  /-- BLK[0..15], the block input buffer (R26). -/
  blk    : Vector (Option Word) 16
  /-- t, the round counter (R27). -/
  t      : Option Counter
  /-- BUSY (R28). -/
  busy   : Bool
  /-- FAULT, none in every state a run can continue from (R34). -/
  fault  : Option FaultRecord
  deriving DecidableEq, Repr

/-- A core and its host. `rdata`, `received`, `pending` and `turns` are the MODEL's own fields, not the spec's state. -/
structure State where
  sha     : ShaState
  /-- RDATA of the host's last access, none where that access returned none (R71; log entry 5). -/
  rdata   : Option Word
  /-- Every RDATA the host has been given, the last at the end (R71, 30_encoding.md R78, R79; log entry 17). -/
  received : List Word
  /-- What the host has still to issue, in order (R12, R61; log entry 3). -/
  pending : List HostLine
  /-- Who moves, where host and engine both can: used from the front; when it is empty the engine moves (R11, R61,
  R228; log entry 4). -/
  turns   : List Agent
  deriving DecidableEq, Repr

/-- The core right after reset (R37, 70_reset_and_hazards.md R220). -/
def ShaState.reset : ShaState where
  hash := Vector.replicate 8 none
  hvalid := false
  v := Vector.replicate 8 none
  w := Vector.replicate 64 none
  blk := Vector.replicate 16 none
  t := none
  busy := false
  fault := none

/-- The machine right after reset: the core as R37 says, the host with nothing to issue (DESIGN CHOICE for the four
fields that are the model's own: log entries 3, 4, 5, 17). -/
def State.reset : State where
  sha := ShaState.reset
  rdata := none
  received := []
  pending := []
  turns := []

/-- Why the machine stops. -/
inductive Fault where
  /-- FAULT already holds a record, so the run has ended and no agent has a step (R34, 60_exceptions.md R202). Raised
  by a step, an access or an engine step taken in such a state. Safe: nothing is claimed of what follows a fault. -/
  | runEnded (r : FaultRecord)
  /-- BUSY = 1 but the round counter is ⊥ or above 64, so neither rule R133 nor R134 is enabled. Raised by the engine,
  in states no run reaches (log entry 8). Safe. -/
  | engineStuck
  /-- The engine would read a ⊥, which R35 and R137 say it never does. Raised by the engine, in states no run reaches
  (log entry 8). Safe. -/
  | engineReadsUnwritten
  deriving DecidableEq, Repr

/-- Why the machine gives no meaning. -/
inductive Refusal where
  /-- Raised by `exec` for an instruction that has no meaning yet. Safe. No arm of this model raises it. -/
  | notModelled (mnemonic : String)
  deriving DecidableEq, Repr

/-- The three outcomes, for this machine. -/
abbrev Outcome := Host.Outcome State Fault Refusal

end Sys2Proof.Machine
end

