-- ==== Sys2Proof/Machine/Flags.lean ====
section
/-! DEFINITION. The core's only flags, BUSY and HVALID (10_state.md R36), as the host reads
them. The arithmetic unit writes no flag (40_arith.md R114). -/

namespace Sys2Proof.Machine

/-- STATUS = zext_32(HVALID ‖ BUSY) (10_state.md R33). -/
def statusWord (c : ShaState) : Word := (BitVec.ofBool c.hvalid ++ BitVec.ofBool c.busy).setWidth 32

/-- BUSY as the host finds it in a word read from STATUS, `s & 1` (30_encoding.md R79). -/
def statusBusy (x : Word) : Bool := x.getLsbD 0

end Sys2Proof.Machine
end

