-- ==== Sys2Proof/Decode.lean ====
section
/-! DEFINITION. Decoding a TX43 transaction word and encoding an operation (30_encoding.md R70-R77). Decoding does not
look at the core's state: test 4 of R74 (BUSY) is made where the access is performed, in the place R203 gives it. -/

namespace Sys2Proof

/-- The number of a fault code (60_exceptions.md R201). -/
def FaultCode.number : FaultCode → Nat
  | .badSize => 1
  | .misaligned => 2
  | .unmapped => 3
  | .busyAccess => 4
  | .writeToReadOnly => 5
  | .readOfWriteOnly => 6
  | .reservedBits => 7
  | .illegalCommand => 8
  | .hashNotValid => 9
  | .blockNotWritten => 10

/-! ### TX43's fields (R71) -/

/-- DIR = TX[42]: true is a write. -/
def txDir (tx : Tx) : Bool := tx.getLsbD 42

/-- SIZE = TX[41:40]. -/
def txSize (tx : Tx) : BitVec 2 := tx.extractLsb' 40 2

/-- ADDR = TX[39:32]. -/
def txAddr (tx : Tx) : Offset := tx.extractLsb' 32 8

/-- WDATA = TX[31:0]. -/
def txWdata (tx : Tx) : Word := tx.extractLsb' 0 32

/-- DESC = TX[42:32] = DIR ‖ SIZE ‖ ADDR. -/
def txDesc (tx : Tx) : Desc := tx.extractLsb' 32 11

/-- The transaction with these four fields. -/
def mkTx (dir : Bool) (size : BitVec 2) (addr : Offset) (wdata : Word) : Tx :=
  BitVec.ofBool dir ++ size ++ addr ++ wdata

/-- The one legal SIZE, 4 bytes (R71, 20_memory.md R53). -/
def size4 : BitVec 2 := 0b10#2

/-! ### The register map (20_memory.md R51, R73) -/

/-- BLK's index j = ADDR[5:2]. -/
def blkIndex (addr : Offset) : Fin 16 := ⟨(addr.extractLsb' 2 4).toNat, (addr.extractLsb' 2 4).isLt⟩

/-- HASH's index i = ADDR[4:2]. -/
def hashIndex (addr : Offset) : Fin 8 := ⟨(addr.extractLsb' 2 3).toNat, (addr.extractLsb' 2 3).isLt⟩

/-- The register at an offset, none where the offset is reserved (R51). -/
def registerAt (addr : Offset) : Option Reg :=
  if addr = 0x00#8 then some .ctrl
  else if addr = 0x04#8 then some .status
  else if 0x40#8 ≤ addr ∧ addr ≤ 0x7C#8 then some (.blk (blkIndex addr))
  else if 0x80#8 ≤ addr ∧ addr ≤ 0x9C#8 then some (.hash (hashIndex addr))
  else none

/-- The offset of a register (R51). -/
def Reg.offset : Reg → Offset
  | .ctrl => 0x00#8
  | .status => 0x04#8
  | .blk j => 0x40#8 + BitVec.ofNat 8 (4 * j.val)
  | .hash i => 0x80#8 + BitVec.ofNat 8 (4 * i.val)

/-! ### Decode -/

/-- The command a write to CTRL carries: RSVD = WDATA[31:4] is tested before CMD = WDATA[3:0] (R72,
43_commands.md R150). -/
def decodeCommand (wdata : Word) : Except FaultCode Instr :=
  if wdata.extractLsb' 4 28 ≠ 0#28 then .error .reservedBits
  else if wdata.extractLsb' 0 4 = 0x0#4 then .ok .nop
  else if wdata.extractLsb' 0 4 = 0x1#4 then .ok .init
  else if wdata.extractLsb' 0 4 = 0x2#4 then .ok .compress
  else .error .illegalCommand

/-- R74 less its test 4: the operation a transaction word selects, or the fault of the first test it fails. Total on
the 2^43 words. -/
def decode (tx : Tx) : Except FaultCode Instr :=
  if txSize tx ≠ size4 then .error .badSize
  else if (txAddr tx).extractLsb' 0 2 ≠ 0#2 then .error .misaligned
  else match registerAt (txAddr tx) with
    | none => .error .unmapped
    | some .ctrl => if txDir tx then decodeCommand (txWdata tx) else .error .readOfWriteOnly
    | some .status => if txDir tx then .error .writeToReadOnly else .ok (.rdStatus (txWdata tx))
    | some (.blk j) => if txDir tx then .ok (.wrBlk j (txWdata tx)) else .ok (.rdBlk j (txWdata tx))
    | some (.hash i) => if txDir tx then .error .writeToReadOnly else .ok (.rdHash i (txWdata tx))

/-! ### Encode -/

/-- The transaction word of an operation (R75). -/
def encode : Instr → Tx
  | .nop => mkTx true size4 Reg.ctrl.offset 0x0#32
  | .init => mkTx true size4 Reg.ctrl.offset 0x1#32
  | .compress => mkTx true size4 Reg.ctrl.offset 0x2#32
  | .rdStatus wdata => mkTx false size4 Reg.status.offset wdata
  | .wrBlk j wdata => mkTx true size4 (Reg.blk j).offset wdata
  | .rdBlk j wdata => mkTx false size4 (Reg.blk j).offset wdata
  | .rdHash i wdata => mkTx false size4 (Reg.hash i).offset wdata

/-- The opcode table's seven match/mask pairs (R75). -/
def opcodeTable : List OpcodeRow := [
  ⟨"NOP",       0x7FFFFFFFFFF#43, 0x60000000000#43⟩,
  ⟨"INIT",      0x7FFFFFFFFFF#43, 0x60000000001#43⟩,
  ⟨"COMPRESS",  0x7FFFFFFFFFF#43, 0x60000000002#43⟩,
  ⟨"RD_STATUS", 0x7FF00000000#43, 0x20400000000#43⟩,
  ⟨"WR_BLK",    0x7C300000000#43, 0x64000000000#43⟩,
  ⟨"RD_BLK",    0x7C300000000#43, 0x24000000000#43⟩,
  ⟨"RD_HASH",   0x7E300000000#43, 0x28000000000#43⟩]

/-- The mnemonic of an operation's row (R75). -/
def Instr.mnemonic : Instr → String
  | .nop => "NOP"
  | .init => "INIT"
  | .compress => "COMPRESS"
  | .rdStatus _ => "RD_STATUS"
  | .wrBlk _ _ => "WR_BLK"
  | .rdBlk _ _ => "RD_BLK"
  | .rdHash _ _ => "RD_HASH"

/-- A word matches a row (R75). -/
def OpcodeRow.covers (row : OpcodeRow) (tx : Tx) : Bool := tx &&& row.mask == row.pattern

/-- The operation the decoder reads from a table word: bit 0 of `w` is TX's bit 0, and a word with a bit above 42 is no
transaction. -/
def decodeTableWord (nbits w : Nat) : Option Instr :=
  if w % 2 ^ nbits < 2 ^ 43 then (decode (BitVec.ofNat 43 (w % 2 ^ nbits))).toOption else none

end Sys2Proof
end

