-- ==== Sys2Proof/Machine/Operands.lean ====
section
/-! DEFINITION. Operand forms: register files of words or ⊥, the byte order of blocks and digests (20_memory.md R57,
R58), and a host access as a transaction (00_scope.md R9, 20_memory.md R50). -/

namespace Sys2Proof.Machine

/-- A register file of n registers, all ⊥. -/
def unwritten (n : Nat) : Vector (Option Word) n := Vector.replicate n none

/-- A register file that holds these words. -/
def written {n : Nat} (xs : Vector Word n) : Vector (Option Word) n := Vector.ofFn fun i => some xs[i]

/-- The words of a register file, none where some register is ⊥. -/
def allWords {n : Nat} (xs : Vector (Option Word) n) : Option (Vector Word n) :=
  if ∀ i : Fin n, xs[i].isSome = true then some (Vector.ofFn fun i => xs[i].getD 0#32) else none

/-- W with BLK's sixteen words in W[0..15], the others as they were (41_schedule.md R120). -/
def loadSchedule (blk : Vector (Option Word) 16) (w : Vector (Option Word) 64) : Vector (Option Word) 64 :=
  Vector.ofFn fun j => if h : j.val < 16 then blk[j.val] else w[j]

/-- PackBE: four bytes, the first the most significant (R57). -/
def packBE (b0 b1 b2 b3 : Byte) : Word := b0 ++ b1 ++ b2 ++ b3

/-- Byte k of a word, x[31 - 8k : 24 - 8k], for k = 0..3 (R57). -/
def wordByte (x : Word) (k : Nat) : Byte := x.extractLsb' (24 - 8 * k) 8

/-- The digest's byte k, HASH[k div 4][31 - 8·(k mod 4) : 24 - 8·(k mod 4)] (R58). -/
def digestByte (h : Vector Word 8) (k : Fin 32) : Byte :=
  wordByte (h[k.val / 4]'(by omega)) (k.val % 4)

/-- MemRead(addr, 4) as a transaction (R9, R50). -/
def memRead (addr : Offset) : Tx := mkTx false size4 addr 0#32

/-- MemWrite(addr, 4, v) as a transaction (R9, R50). -/
def memWrite (addr : Offset) (v : Word) : Tx := mkTx true size4 addr v

end Sys2Proof.Machine
end

