-- ==== Sys2Proof/Machine/Ops.lean ====
section
/-! DEFINITION. The named updates of the state and the operations every host access goes through: the check that the
run has not ended, test 4 of 30_encoding.md R74, and taking a fault (60_exceptions.md R202). -/

namespace Sys2Proof.Machine

/-! ### Updates of the core -/

/-- INIT's: HASH <- H0, HVALID <- 1 (43_commands.md R152). -/
def ShaState.loadH0 (c : ShaState) : ShaState := { c with hash := written H0, hvalid := true }

/-- The accept step's, once its checks have passed (43_commands.md R153). -/
def ShaState.accept (c : ShaState) : ShaState :=
  { c with w := loadSchedule c.blk c.w, v := c.hash, t := some 0#7, blk := unwritten 16, busy := true }

/-- WR_BLK's: BLK[j] <- x (43_commands.md R155). -/
def ShaState.setBlk (c : ShaState) (j : Fin 16) (x : Word) : ShaState := { c with blk := c.blk.set j (some x) }

/-- Round step n's: W[n] <- x where n ≥ 16, the working registers, t <- t + 1 (42_compression.md R133). -/
def ShaState.afterRound (c : ShaState) (n : Counter) (h : n.toNat < 64) (x : Word) (v : Vector Word 8) : ShaState :=
  { c with
    w := if n.toNat < 16 then c.w else c.w.set n.toNat (some x)
    v := written v
    t := some (n + 1#7) }

/-- The final step's: the new HASH; a-h, W and t to ⊥; BUSY <- 0 (42_compression.md R134). -/
def ShaState.afterFinal (c : ShaState) (h : Vector Word 8) : ShaState :=
  { c with hash := written h, v := unwritten 8, w := unwritten 64, t := none, busy := false }

/-- FAULT <- r, and nothing else (60_exceptions.md R202). -/
def ShaState.setFault (c : ShaState) (r : FaultRecord) : ShaState := { c with fault := some r }

/-! ### Ends of an access -/

/-- The access ends with no RDATA (a write). -/
def done (c : ShaState) (s : State) : Outcome := .next { s with sha := c, rdata := none }

/-- The access ends with RDATA, which the host keeps, and reads change nothing of the core (20_memory.md R56). -/
def reply (x : Word) (s : State) : Outcome := .next { s with rdata := some x, received := s.received ++ [x] }

/-- `raise Fault(code, (DESC, WDATA))`: taking a fault. The core keeps every register, flag, buffer and engine state,
FAULT takes the record, no RDATA is returned (60_exceptions.md R202; log entry 2). -/
def raiseFault (code : FaultCode) (desc : Desc) (wdata : Word) (s : State) : Outcome :=
  .next { s with sha := s.sha.setFault ⟨code, desc, wdata⟩, rdata := none }

/-- `raise Fault` by operation `i`: the record holds its own transaction's descriptor and WDATA (R74; log entry 7). -/
def raiseBy (i : Instr) (code : FaultCode) (s : State) : Outcome :=
  raiseFault code (txDesc (encode i)) (txWdata (encode i)) s

/-! ### What guards a step -/

/-- Once FAULT holds a record no agent has a step (R34, 60_exceptions.md R202). -/
def unlessEnded (s : State) (body : Outcome) : Outcome :=
  match s.sha.fault with
  | some r => .fault (.runEnded r)
  | none => body

/-- Operation `i` in a run that has not ended; while BUSY = 1 it faults with code 4 (R74 test 4, 10_state.md R28). -/
def unlessBusy (i : Instr) (s : State) (body : Outcome) : Outcome :=
  unlessEnded s (if s.sha.busy then raiseBy i .busyAccess s else body)

end Sys2Proof.Machine
end

