-- ==== Sys2Proof/Machine/Commands.lean ====
section
/-! DEFINITION. The commands a write to CTRL performs: NOP, INIT, COMPRESS (43_commands.md R150-R153). -/

namespace Sys2Proof.Machine

/-- NOP: no state changes (R151). -/
def execNop (s : State) : Outcome := unlessBusy .nop s (done s.sha s)

/-- INIT: load the initial hash value (R152). -/
def execInit (s : State) : Outcome := unlessBusy .init s (done s.sha.loadH0 s)

/-- COMPRESS: accept a block and start its compression. HVALID is tested before BLK (R153). A ⊥ in HASH while HVALID = 1,
which no run reaches (10_state.md R22), is copied into a-h as it is: R9 and R35 call a read of ⊥ a fault, and R153 names
no code for this one (DESIGN CHOICE, log entry 16). -/
def execCompress (s : State) : Outcome :=
  unlessBusy .compress s
    (if s.sha.hvalid = false then raiseBy .compress .hashNotValid s
     else if ∃ j : Fin 16, s.sha.blk[j] = none then raiseBy .compress .blockNotWritten s
     else done s.sha.accept s)

end Sys2Proof.Machine
end

