-- ==== Sys2Proof/Machine/Registers.lean ====
section
/-! DEFINITION. The register accesses: RD_STATUS, WR_BLK, RD_BLK, RD_HASH (43_commands.md R154-R157). -/

namespace Sys2Proof.Machine

/-- RD_STATUS: the one access allowed while BUSY = 1; its WDATA is ignored (R154). -/
def execRdStatus (_wdata : Word) (s : State) : Outcome := unlessEnded s (reply (statusWord s.sha) s)

/-- WR_BLK: BLK[j] <- WDATA (R155). -/
def execWrBlk (j : Fin 16) (wdata : Word) (s : State) : Outcome :=
  unlessBusy (.wrBlk j wdata) s (done (s.sha.setBlk j wdata) s)

/-- RD_BLK: RDATA <- BLK[j], code 10 where BLK[j] is ⊥ (R156). -/
def execRdBlk (j : Fin 16) (wdata : Word) (s : State) : Outcome :=
  unlessBusy (.rdBlk j wdata) s
    (match s.sha.blk[j] with
     | none => raiseBy (.rdBlk j wdata) .blockNotWritten s
     | some x => reply x s)

/-- RD_HASH: RDATA <- HASH[i], code 9 where HVALID = 0 (R157). A ⊥ in HASH while HVALID = 1, which no run reaches
(10_state.md R22), is code 9 too (R35; log entry 9). -/
def execRdHash (i : Fin 8) (wdata : Word) (s : State) : Outcome :=
  unlessBusy (.rdHash i wdata) s
    (if s.sha.hvalid = false then raiseBy (.rdHash i wdata) .hashNotValid s
     else match s.sha.hash[i] with
      | none => raiseBy (.rdHash i wdata) .hashNotValid s
      | some x => reply x s)

end Sys2Proof.Machine
end

