-- ==== Sys2Proof/Machine/Dispatch.lean ====
section
/-! DEFINITION. One arm per operation of the opcode table. -/

namespace Sys2Proof.Machine

def exec (i : Instr) (s : State) : Host.Outcome State Fault Refusal :=
  match i with
  | .nop => Sys2Proof.Machine.execNop s
  | .init => Sys2Proof.Machine.execInit s
  | .compress => Sys2Proof.Machine.execCompress s
  | .rdStatus wdata => Sys2Proof.Machine.execRdStatus wdata s
  | .wrBlk j wdata => Sys2Proof.Machine.execWrBlk j wdata s
  | .rdBlk j wdata => Sys2Proof.Machine.execRdBlk j wdata s
  | .rdHash k wdata => Sys2Proof.Machine.execRdHash k wdata s

end Sys2Proof.Machine
end

