-- ==== Sys2Proof/Machine/Engine.lean ====
section
/-! DEFINITION. The engine's steps: 64 round steps and the final step of a compression (42_compression.md
R133-R139). -/

namespace Sys2Proof.Machine

/-- The word W[t] that round step t uses: loaded for t < 16, expanded for t ≥ 16; none where it would read a ⊥
(41_schedule.md R121, R133). -/
def scheduleWord (w : Vector (Option Word) 64) (t : Fin 64) : Option Word :=
  if t.val < 16 then w[t]
  else
    match w[t.val - 2], w[t.val - 7], w[t.val - 15], w[t.val - 16] with
    | some w2, some w7, some w15, some w16 => some (expandWord w2 w7 w15 w16)
    | _, _, _, _ => none

/-- Round step n (R133). -/
def roundStep (n : Counter) (h : n.toNat < 64) (s : State) : Outcome :=
  match scheduleWord s.sha.w ⟨n.toNat, h⟩, allWords s.sha.v with
  | some x, some v => .next { s with sha := s.sha.afterRound n h x (sha256Round ⟨n.toNat, h⟩ v x) }
  | _, _ => .fault .engineReadsUnwritten

/-- The final step (R134). -/
def finalStep (s : State) : Outcome :=
  match allWords s.sha.hash, allWords s.sha.v with
  | some h, some v => .next { s with sha := s.sha.afterFinal (addState h v) }
  | _, _ => .fault .engineReadsUnwritten

/-- The engine's one enabled step while BUSY = 1: a round step if t ≤ 63, the final step if t = 64 (R138, R139). -/
def engineStep (s : State) : Outcome :=
  unlessEnded s
    (match s.sha.t with
     | none => .fault .engineStuck
     | some n =>
       if h : n.toNat < 64 then roundStep n h s
       else if n = 64#7 then finalStep s
       else .fault .engineStuck)

/-- k engine steps on end, with no host step between them. -/
def engineSteps : Nat → State → Outcome
  | 0, s => .next s
  | k + 1, s =>
    match engineStep s with
    | .next s' => engineSteps k s'
    | .fault f => .fault f
    | .refused r => .refused r

end Sys2Proof.Machine
end

