-- ==== Sys2Proof/Machine/Agents.lean ====
section
/-! DEFINITION. The two agents and their interleaving (00_scope.md R11, 20_memory.md R61, 42_compression.md R139). -/

namespace Sys2Proof.Machine

/-- A transaction that decodes to no operation faults with the code of the first test it fails; test 4 (BUSY) comes
before the tests with a higher number (30_encoding.md R74, 60_exceptions.md R203). -/
def rejectWord (code : FaultCode) (tx : Tx) (s : State) : Outcome :=
  unlessEnded s
    (raiseFault (if s.sha.busy = true ∧ 4 < code.number then .busyAccess else code) (txDesc tx) (txWdata tx) s)

/-- One host access: decode the transaction and perform it (R74). -/
def hostAccess (tx : Tx) (s : State) : Outcome :=
  match decode tx with
  | .ok i => exec i s
  | .error code => rejectWord code tx s

/-- POLL's branch: `if (s & 1) != 0 goto L`, that is, the same line again (30_encoding.md R79, R80). -/
def pollAgain (s : State) : State :=
  match s.rdata with
  | some x => if statusBusy x then { s with pending := .poll :: s.pending } else s
  | none => s

/-- One host step, the line taken off `pending` beforehand. -/
def hostStep (line : HostLine) (s : State) : Outcome :=
  match line with
  | .tx word => hostAccess word s
  | .poll =>
    match hostAccess (memRead Reg.status.offset) s with
    | .next s' => .next (pollAgain s')
    | .fault f => .fault f
    | .refused r => .refused r

/-- The machine's step. With BUSY = 0 only the host can move; with BUSY = 1 the engine can, and the host too while it
has something to issue: then `turns` says which (log entry 4). With neither able, nothing changes (log entry 6). -/
def takeTurn (s : State) : Outcome :=
  unlessEnded s
    (match s.pending with
     | [] => if s.sha.busy then engineStep s else .next s
     | line :: rest =>
       if s.sha.busy then
         match s.turns with
         | [] => engineStep s
         | .engine :: turns => engineStep { s with turns := turns }
         | .host :: turns => hostStep line { s with pending := rest, turns := turns }
       else hostStep line { s with pending := rest })

end Sys2Proof.Machine
end

