-- ==== Sys2Proof/Machine/Step.lean ====
section
/-! DEFINITION. The step, and how the host's next transaction is given to it. -/

namespace Sys2Proof.Machine

/-- One step of the machine: a host step or an engine step (00_scope.md R11). -/
def step (s : State) : Host.Outcome State Fault Refusal := Sys2Proof.Machine.takeTurn s

/-- `s` with the transaction `w` as what the host issues next, and the turn the host's where the engine could move
too. The core fetches no instructions (20_memory.md R65): this stands for the host issuing the access (log entry 3). -/
def State.withFetchWord (s : State) (nbits w : Nat) : State :=
  { s with
    pending := .tx (BitVec.ofNat 43 (w % 2 ^ nbits)) :: s.pending
    turns := if s.sha.busy then .host :: s.turns else s.turns }

end Sys2Proof.Machine
end

