-- ==== Sys2Proof/WellFormed.lean ====
section
/-! DEFINITION. The checks on what a host writes. An `Instr` needs none of its own to be encodable: its operand types
admit exactly the encodable operands. What can be ill-formed is an assembler line, whose numbers are as written
(30_encoding.md R78), and what an `Instr` can fail is to be a word the assembler emits. -/

namespace Sys2Proof

/-- R78: a register is BLK0 … BLK15, HASH0 … HASH7 or a byte offset of the register space. -/
def RegName.wellFormed : RegName → Bool
  | .ctrl => true
  | .status => true
  | .blk n => n < 16
  | .hash n => n < 8
  | .raw offset => offset < 256

/-- R78: the register is one the assembler knows, and 0 ≤ value < 2^32. -/
def AsmLine.wellFormed : AsmLine → Bool
  | .wr _ reg value => reg.wellFormed && value < 2 ^ 32
  | .rd _ reg => reg.wellFormed

/-- R71: the assembler emits WDATA = 0 in a read; any other WDATA in a read is ignored by the core. -/
def Instr.assembled : Instr → Bool
  | .nop => true
  | .init => true
  | .compress => true
  | .rdStatus wdata => wdata == 0
  | .wrBlk _ _ => true
  | .rdBlk _ wdata => wdata == 0
  | .rdHash _ wdata => wdata == 0

end Sys2Proof
end

