-- ==== Sys2Proof/Machine/Assembler.lean ====
section
/-! DEFINITION. The assembler's lines and pseudo-instructions (30_encoding.md R78, R79). -/

namespace Sys2Proof.Machine

/-- SIZE as the assembler writes it (R71, R78). -/
def sizeBits : AccessSize → BitVec 2
  | .byte => 0b00#2
  | .half => 0b01#2
  | .word => 0b10#2

/-- The offset a register name stands for (20_memory.md R51). -/
def nameOffset : RegName → Offset
  | .ctrl => Reg.ctrl.offset
  | .status => Reg.status.offset
  | .blk n => BitVec.ofNat 8 (0x40 + 4 * n)
  | .hash n => BitVec.ofNat 8 (0x80 + 4 * n)
  | .raw offset => BitVec.ofNat 8 offset

/-- The transaction word of an assembler line, none where the line is ill-formed (R78). -/
def assemble (line : AsmLine) : Option Tx :=
  if line.wellFormed then
    some (match line with
      | .wr size reg value => mkTx true (sizeBits size) (nameOffset reg) (BitVec.ofNat 32 value)
      | .rd size reg => mkTx false (sizeBits size) (nameOffset reg) 0#32)
  else none

/-- `LDBLK m0, …, m15`: WR BLK0 … WR BLK15 (R79). -/
def ldblkLines (m : Vector Word 16) : List HostLine :=
  (List.finRange 16).map fun j => .tx (memWrite (Reg.blk j).offset m[j])

/-- `BLOCK m0, …, m15`: LDBLK; COMPRESS; POLL (R79). -/
def blockLines (m : Vector Word 16) : List HostLine :=
  ldblkLines m ++ [.tx (encode .compress), .poll]

/-- `RDDIGEST`: RD HASH0 … RD HASH7 (R79). -/
def rddigestLines : List HostLine :=
  (List.finRange 8).map fun i => .tx (memRead (Reg.hash i).offset)

/-- The expansion of a pseudo-instruction (R79). -/
def expand : Pseudo → List HostLine
  | .nop => [.tx (encode .nop)]
  | .init => [.tx (encode .init)]
  | .compress => [.tx (encode .compress)]
  | .poll => [.poll]
  | .ldblk m => ldblkLines m
  | .block m => blockLines m
  | .rddigest => rddigestLines

end Sys2Proof.Machine
end

