-- ==== Sys2Proof/Safety.lean ====
section
/-! DEFINITION. The invariant of the core's state, what a safe run and a successful end are, and the clear forms that
claims compare the machine with. -/

namespace Sys2Proof.Machine

/-- HASH holds eight words when HVALID = 1 and eight ⊥ when HVALID = 0 (10_state.md R22). -/
abbrev ShaState.HashOk (c : ShaState) : Prop :=
  if c.hvalid then ∀ i : Fin 8, c.hash[i].isSome = true else c.hash = unwritten 8

/-- While idle the engine holds ⊥ everywhere (R23, R25, R27). -/
abbrev ShaState.IdleOk (c : ShaState) : Prop :=
  c.t = none ∧ c.v = unwritten 8 ∧ c.w = unwritten 64

/-- While a compression runs: HASH is valid, BLK is consumed, a-h hold words, t is at most 64, and W holds exactly the
words loaded or already expanded (R27, R35, 42_compression.md R141, 41_schedule.md R123). -/
abbrev ShaState.RunningOk (c : ShaState) : Prop :=
  c.hvalid = true ∧ c.blk = unwritten 16 ∧ (∀ i : Fin 8, c.v[i].isSome = true) ∧
    ∃ n ∈ c.t, n.toNat ≤ 64 ∧ ∀ j : Fin 64, c.w[j].isSome = true ↔ j.val < 16 ∨ j.val < n.toNat

/-- The invariant every step keeps. -/
abbrev ShaState.Inv (c : ShaState) : Prop :=
  c.HashOk ∧ if c.busy then c.RunningOk else c.IdleOk

/-- The invariant of the machine: the core's. Nothing is asked of the host's side. -/
abbrev State.Inv (s : State) : Prop := s.sha.Inv

/-- A state a run can continue from (10_state.md R34). -/
abbrev State.live (s : State) : Prop := s.sha.fault = none

/-- The end of a successful run: FAULT = none and BUSY = 0 after the host's last access (70_reset_and_hazards.md
R229). -/
abbrev State.successfulEnd (s : State) : Prop := s.sha.fault = none ∧ s.sha.busy = false ∧ s.pending = []

/-- The outcome is the taking of fault `r` in `s`: FAULT takes the record, the core is otherwise as it was, and no RDATA
is returned (60_exceptions.md R202; that it is a next state is log entry 2). -/
abbrev TakesFault (o : Outcome) (s : State) (r : FaultRecord) : Prop :=
  ∃ t, o = .next t ∧ t.sha = { s.sha with fault := some r } ∧ t.rdata = none

/-- 30_encoding.md R74 and 43_commands.md R150 written out with BUSY, test by test: the operation a transaction selects
or the fault it raises before any operation's own rule. -/
def decodeWithBusy (busy : Bool) (tx : Tx) : Except FaultCode Instr :=
  let reg := registerAt (txAddr tx)
  if txSize tx ≠ 0b10#2 then .error .badSize
  else if (txAddr tx).extractLsb' 0 2 ≠ 0b00#2 then .error .misaligned
  else if reg = none then .error .unmapped
  else if busy = true ∧ ¬ (reg = some .status ∧ txDir tx = false) then .error .busyAccess
  else
    match txDir tx, reg with
    | true, some .status => .error .writeToReadOnly
    | true, some (.hash _) => .error .writeToReadOnly
    | false, some .ctrl => .error .readOfWriteOnly
    | true, some .ctrl =>
      if (txWdata tx).extractLsb' 4 28 ≠ 0#28 then .error .reservedBits
      else match (txWdata tx).toNat % 16 with
        | 0 => .ok .nop
        | 1 => .ok .init
        | 2 => .ok .compress
        | _ => .error .illegalCommand
    | false, some .status => .ok (.rdStatus (txWdata tx))
    | true, some (.blk j) => .ok (.wrBlk j (txWdata tx))
    | false, some (.blk j) => .ok (.rdBlk j (txWdata tx))
    | false, some (.hash i) => .ok (.rdHash i (txWdata tx))
    | _, none => .error .unmapped

/-- The sixteen block writes of one block, in the order of the list. -/
def writeBlock (m : Vector Word 16) : List (Fin 16) → State → Outcome
  | [], s => .next s
  | j :: rest, s =>
    match exec (.wrBlk j m[j]) s with
    | .next s' => writeBlock m rest s'
    | .fault f => .fault f
    | .refused r => .refused r

/-- One block through the core: write BLK0 … BLK15, COMPRESS, and the engine's 65 steps (42_compression.md R136). -/
def submitBlock (m : Vector Word 16) (s : State) : Outcome :=
  match writeBlock m (List.finRange 16) s with
  | .next s1 =>
    match exec .compress s1 with
    | .next s2 => engineSteps 65 s2
    | .fault f => .fault f
    | .refused r => .refused r
  | .fault f => .fault f
  | .refused r => .refused r

/-- Blocks through the core, in order (42_compression.md R136). -/
def submitBlocks : List (Vector Word 16) → State → Outcome
  | [], s => .next s
  | m :: rest, s =>
    match submitBlock m s with
    | .next s' => submitBlocks rest s'
    | .fault f => .fault f
    | .refused r => .refused r

end Sys2Proof.Machine
end

