-- ==== Sys2Proof/Machine/HostProcedure.lean ====
section
/-! DEFINITION. The host's reference procedure: encoder, padder, block split, digest procedure, formatter
(44_host_procedure.md R170-R181). It is outside the core (00_scope.md R4), which checks none of it. -/

namespace Sys2Proof.Machine

/-- The bytes of a text given as code units; a text with a unit above 0xFF is refused (R171). -/
def encodeText (units : List Nat) : Option (List Byte) :=
  if units.all (· ≤ 0xFF) then some (units.map (BitVec.ofNat 8)) else none

/-- MAX_MSG_BYTES (R172). -/
def maxMsgBytes : Nat := 2 ^ 29 - 1

/-- z = (55 - L) mod 64, the number of zero bytes (R173). -/
def padZeros (len : Nat) : Nat := (55 + 64 - len % 64) % 64

/-- BE64(n), most significant byte first (R174). -/
def be64 (n : Nat) : List Byte := (List.range 8).map fun k => BitVec.ofNat 8 (n / 2 ^ (56 - 8 * k))

/-- Pad(B) = B ‖ 0x80 ‖ 0x00 × z ‖ BE64(8·L) (R173). -/
def pad (b : List Byte) : List Byte :=
  b ++ [0x80#8] ++ List.replicate (padZeros b.length) 0#8 ++ be64 (8 * b.length)

/-- N = floor((L + 8) / 64) + 1 (R175). -/
def blockCount (len : Nat) : Nat := (len + 8) / 64 + 1

/-- The words of block k of a padded message (R176). -/
def blockWords (p : List Byte) (k : Nat) : Vector Word 16 :=
  Vector.ofFn fun j =>
    let byteAt := fun n => p.getD (64 * k + 4 * j.val + n) 0#8
    packBE (byteAt 0) (byteAt 1) (byteAt 2) (byteAt 3)

/-- The blocks of a message, none where the host procedure refuses it (R171, R172, R176). -/
def messageBlocks (units : List Nat) : Option (List (Vector Word 16)) :=
  match encodeText units with
  | none => none
  | some b =>
    if b.length ≤ maxMsgBytes then some ((List.range (blockCount b.length)).map (blockWords (pad b))) else none

/-- What the host issues for one digest: INIT; BLOCK for each block; RDDIGEST (R177). -/
def digestLines (blocks : List (Vector Word 16)) : List HostLine :=
  expand .init ++ blocks.flatMap (fun m => expand (.block m)) ++ expand .rddigest

/-- A nibble's character, of `0123456789abcdef` (R178). -/
def hexDigit (n : Nat) : Char := "0123456789abcdef".toList.getD n '0'

/-- The 8 hex digits of a word, from x[31:28] down to x[3:0] (R178). -/
def formatWord (x : Word) : List Char :=
  (List.range 8).map fun k => hexDigit (x.extractLsb' (28 - 4 * k) 4).toNat

/-- Format(d0, …, d7), as a list of characters (R178). -/
def formatDigest (d : Vector Word 8) : List Char :=
  (List.finRange 8).flatMap fun i => formatWord d[i]

/-- d0, …, d7: the eight words RDDIGEST gave the host, the last it was given (30_encoding.md R79, R177). -/
def digestWords (received : List Word) : Option (Vector Word 8) :=
  if h : 8 ≤ received.length then some (Vector.ofFn fun i => received[received.length - 8 + i.val]) else none

/-- At most this many steps of the machine does the program of R177 take: INIT; for each block sixteen writes, COMPRESS,
65 engine steps and a last read of STATUS; eight reads of HASH; and one for each turn there is (70_reset_and_hazards.md
R230). Steps after the program's end change nothing (log entry 6). -/
def digestSteps (blocks : List (Vector Word 16)) (turns : List Agent) : Nat :=
  1 + (16 + 1 + 65 + 1) * blocks.length + 8 + turns.length

/-- Digest(text) as R177 writes it, run on the core of `s` under the turns of `s`: the program is issued, the machine
steps, and the eight words the host was given are formatted. None where the procedure refuses the text, or where the run
does not end successfully (70_reset_and_hazards.md R229). -/
def digestOnCore (units : List Nat) (s : State) : Option (List Char) :=
  match messageBlocks units with
  | none => none
  | some blocks =>
    let outcome : Outcome := core.run (digestSteps blocks s.turns) { s with pending := digestLines blocks }
    match outcome with
    | .next u => if u.successfulEnd then (digestWords u.received).map formatDigest else none
    | .fault _ => none
    | .refused _ => none

/-- The value of Digest(text), none where the host procedure refuses the text: R177's end, HASH = Chain(H0, blocks),
formatted. That it is what `digestOnCore` gives is a statement of its own. -/
def digest (units : List Nat) : Option (List Char) :=
  (messageBlocks units).map fun blocks => formatDigest (chain H0 blocks)

end Sys2Proof.Machine
end

