-- ==== Sys2Proof/Config.lean ====
section
/-! DEFINITION. What one installation of SHA256-CORE fixes: the two parameters 00_scope.md R6 and 20_memory.md R59
leave OPEN. Neither has a value here, so nothing can be proved of one. The spec's other parameters are constants of
the hardware and stand where they are used. -/

namespace Sys2Proof

/-- REG_BASE: where the platform puts the 256-byte register window in a host's own address space (R59, OPEN). -/
opaque Config.regBase : Nat

/-- How many cores a platform holds beyond its first (R211, OPEN). -/
opaque Config.extraCores : Nat

/-- N_CORES, at least 1 (R6, R211). -/
def Config.nCores : Nat := Config.extraCores + 1

end Sys2Proof
end

