-- ==== Sys2Proof/Machine/Platform.lean ====
section
/-! DEFINITION. What a platform adds around a core: the place of its register window (20_memory.md R59) and several
instances (60_exceptions.md R211). -/

namespace Sys2Proof.Machine

/-- A host address A reaches offset A - REG_BASE, none outside the 256-byte window (R59). -/
def windowOffset (addr : Nat) : Option Offset :=
  if Config.regBase ≤ addr ∧ addr < Config.regBase + 256 then some (BitVec.ofNat 8 (addr - Config.regBase)) else none

/-- N_CORES instances, each started by its own reset (R211). -/
def Platform.reset : List State := List.replicate Config.nCores State.reset

/-- One step of instance k; the instances share no state and send each other nothing (R211). None where instance k
has no next state. -/
def Platform.step (k : Nat) (cores : List State) : Option (List State) :=
  match cores[k]? with
  | none => none
  | some s =>
    match Sys2Proof.Machine.step s with
    | .next s' => some (cores.set k s')
    | .fault _ => none
    | .refused _ => none

end Sys2Proof.Machine
end

