-- ==== Sys2Proof/Certificates/Slice0/Obligations.lean ====
section
/-! DEFINITION. The statements for the provers. A statement about an access speaks of the whole core state (`t.sha`,
the tuple of 10_state.md R20) after it, so it is its own frame: everything it does not name is as before. This core
has no memory (20_memory.md R50): the register space is that tuple. The fields `rdata`,
`received`, `pending` and `turns` are the model's own (log entries 3, 4, 5, 17); RDATA itself is the spec's
(30_encoding.md R71). -/

open Sys2Proof Sys2Proof.Machine

/-! ### Encoding -/

/-- A few words written out from the table of R75 and the pseudo-instructions of R79 decode to what they stand for,
and words of R76's illegal classes to their faults. -/
def Obligations.WrittenOutWordsDecode : Prop :=
  decode 0x60000000000#43 = .ok .nop ∧ decode 0x60000000001#43 = .ok .init ∧
    decode 0x60000000002#43 = .ok .compress ∧ decode 0x20400000000#43 = .ok (.rdStatus 0#32) ∧
    decode 0x64061626380#43 = .ok (.wrBlk 0 0x61626380#32) ∧
    decode 0x67C000001C0#43 = .ok (.wrBlk 15 0x000001C0#32) ∧ decode 0x27C00000000#43 = .ok (.rdBlk 15 0#32) ∧
    decode 0x29C00000000#43 = .ok (.rdHash 7 0#32) ∧ decode 0x60400000000#43 = .error .writeToReadOnly ∧
    decode 0x60000000013#43 = .error .reservedBits

/-- Decoding an encoded operation gives it back, with every operand at every value: no bit of an encoding is dropped. -/
def Obligations.DecodeEncodeAgree : Prop :=
  ∀ i : Instr, decode (encode i) = .ok i

/-- Each transaction has one meaning: the word an operation was decoded from is that operation's encoding. -/
def Obligations.EncodeDecodeAgree : Prop :=
  ∀ (tx : Tx) (i : Instr), decode tx = .ok i → encode i = tx

/-- A row of the opcode table covers exactly the words that decode to an operation of its mnemonic. -/
def Obligations.EachRowSelectsItsWords : Prop :=
  ∀ tx : Tx, ∀ row ∈ opcodeTable,
    row.covers tx = true ↔ ∃ i, decode tx = .ok i ∧ i.mnemonic = row.mnemonic

/-- R74: performing a transaction is the operation, or the fault, that the tests of R74 give in their order, BUSY's
among them. -/
def Obligations.AccessFollowsTheTestOrder : Prop :=
  ∀ (s : State) (tx : Tx), s.sha.fault = none →
    match decodeWithBusy s.sha.busy tx with
    | .ok i => hostAccess tx s = exec i s
    | .error code => TakesFault (hostAccess tx s) s ⟨code, txDesc tx, txWdata tx⟩

/-- R76: a transaction that matches no row faults, and each illegal class has its code (4 instead of a code above it
while BUSY = 1). -/
def Obligations.IllegalTransactionsFault : Prop :=
  ∀ (s : State) (tx : Tx), s.sha.fault = none →
    let faults := fun code => TakesFault (hostAccess tx s) s ⟨code, txDesc tx, txWdata tx⟩
    let unlessBusyCode := fun code : FaultCode => if s.sha.busy then .busyAccess else code
    ((∀ row ∈ opcodeTable, row.covers tx = false) → ∃ code, faults code) ∧
      (txSize tx ≠ 0b10#2 → faults .badSize) ∧
      (txSize tx = 0b10#2 → (txAddr tx).toNat % 4 ≠ 0 → faults .misaligned) ∧
      (txSize tx = 0b10#2 → (txAddr tx).toNat % 4 = 0 →
        (0x08 ≤ (txAddr tx).toNat ∧ (txAddr tx).toNat ≤ 0x3C) ∨ (0xA0 ≤ (txAddr tx).toNat ∧ (txAddr tx).toNat ≤ 0xFC) →
        faults .unmapped) ∧
      (txDesc tx = 0x604#11 ∨ (∃ i : Fin 8, txDesc tx = BitVec.ofNat 11 (0x680 + 4 * i.val)) →
        faults (unlessBusyCode .writeToReadOnly)) ∧
      (txDesc tx = 0x200#11 → faults (unlessBusyCode .readOfWriteOnly)) ∧
      (txDesc tx = 0x600#11 → 16 ≤ (txWdata tx).toNat → faults (unlessBusyCode .reservedBits)) ∧
      (txDesc tx = 0x600#11 → 3 ≤ (txWdata tx).toNat → (txWdata tx).toNat ≤ 15 →
        faults (unlessBusyCode .illegalCommand))

/-! ### Reset and invariants -/

/-- The value of every component after reset (R37); what holds ⊥ and can be reached by the host faults when it reads
it. The words of K and H0 are the ones the spec supplies from general knowledge (log entry 10). -/
def Obligations.ResetValues : Prop :=
  (∀ i : Fin 8, State.reset.sha.hash[i] = none) ∧ State.reset.sha.hvalid = false ∧
    (∀ i : Fin 8, State.reset.sha.v[i] = none) ∧ (∀ j : Fin 64, State.reset.sha.w[j] = none) ∧
    (∀ j : Fin 16, State.reset.sha.blk[j] = none) ∧ State.reset.sha.t = none ∧ State.reset.sha.busy = false ∧
    State.reset.sha.fault = none ∧ statusWord State.reset.sha = 0x00000000#32 ∧
    (∀ (i : Fin 8) (x : Word), ∃ d, TakesFault (exec (.rdHash i x) State.reset) State.reset ⟨.hashNotValid, d, x⟩) ∧
    (∀ (j : Fin 16) (x : Word), ∃ d, TakesFault (exec (.rdBlk j x) State.reset) State.reset ⟨.blockNotWritten, d, x⟩) ∧
    H0 = #v[0x6A09E667, 0xBB67AE85, 0x3C6EF372, 0xA54FF53A, 0x510E527F, 0x9B05688C, 0x1F83D9AB, 0x5BE0CD19] ∧
    K = #v[
      0x428A2F98, 0x71374491, 0xB5C0FBCF, 0xE9B5DBA5, 0x3956C25B, 0x59F111F1, 0x923F82A4, 0xAB1C5ED5,
      0xD807AA98, 0x12835B01, 0x243185BE, 0x550C7DC3, 0x72BE5D74, 0x80DEB1FE, 0x9BDC06A7, 0xC19BF174,
      0xE49B69C1, 0xEFBE4786, 0x0FC19DC6, 0x240CA1CC, 0x2DE92C6F, 0x4A7484AA, 0x5CB0A9DC, 0x76F988DA,
      0x983E5152, 0xA831C66D, 0xB00327C8, 0xBF597FC7, 0xC6E00BF3, 0xD5A79147, 0x06CA6351, 0x14292967,
      0x27B70A85, 0x2E1B2138, 0x4D2C6DFC, 0x53380D13, 0x650A7354, 0x766A0ABB, 0x81C2C92E, 0x92722C85,
      0xA2BFE8A1, 0xA81A664B, 0xC24B8B70, 0xC76C51A3, 0xD192E819, 0xD6990624, 0xF40E3585, 0x106AA070,
      0x19A4C116, 0x1E376C08, 0x2748774C, 0x34B0BCB5, 0x391C0CB3, 0x4ED8AA4A, 0x5B9CCA4F, 0x682E6FF3,
      0x748F82EE, 0x78A5636F, 0x84C87814, 0x8CC70208, 0x90BEFFFA, 0xA4506CEB, 0xBEF9A3F7, 0xC67178F2]

/-- The reset state meets the invariant. -/
def Obligations.ResetMeetsTheInvariant : Prop := State.reset.Inv

/-- Every step from a state that meets the invariant, whatever the host issues and whoever moves, gives one that
meets it. -/
def Obligations.StepKeepsTheInvariant : Prop :=
  ∀ s t : State, s.Inv → step s = .next t → t.Inv

/-- From every state that meets the invariant and has no fault recorded, the machine has a step: nothing the host
issues, well-formed or not, is refused or stops it short of FAULT. -/
def Obligations.LiveStateHasAStep : Prop :=
  ∀ s : State, s.Inv → s.sha.fault = none → ∃ t, step s = .next t

/-- R137: an engine step cannot fault, and a step that sets FAULT is a host access. -/
def Obligations.EngineStepsCannotFault : Prop :=
  (∀ s : State, s.Inv → s.sha.fault = none → s.sha.busy = true →
    ∃ t, engineStep s = .next t ∧ t.sha.fault = none) ∧
  ∀ s t : State, s.Inv → step s = .next t → t.sha.fault ≠ none → ∃ line rest, s.pending = line :: rest

/-- Once FAULT holds a record neither agent has a step. -/
def Obligations.EndedRunHasNoStep : Prop :=
  ∀ (s : State) (r : FaultRecord), s.sha.fault = some r →
    step s = .fault (.runEnded r) ∧ engineStep s = .fault (.runEnded r) ∧ ∀ i, exec i s = .fault (.runEnded r)

/-! ### The host operations -/

/-- R151: NOP changes nothing; while BUSY = 1 it faults with code 4. -/
def Obligations.NopChangesNothing : Prop :=
  ∀ s : State, s.sha.fault = none →
    (s.sha.busy = false → ∃ t, exec .nop s = .next t ∧ t.sha = s.sha) ∧
      (s.sha.busy = true → TakesFault (exec .nop s) s ⟨.busyAccess, 0x600#11, 0#32⟩)

/-- R152: INIT loads H0 and sets HVALID and touches nothing else; a second INIT leaves the same state; while BUSY = 1
it faults with code 4. -/
def Obligations.InitLoadsH0 : Prop :=
  ∀ s : State, s.sha.fault = none →
    (s.sha.busy = false → ∃ t, exec .init s = .next t ∧
      t.sha = { s.sha with hash := Vector.ofFn fun i => some H0[i], hvalid := true } ∧
      ∃ u, exec .init t = .next u ∧ u.sha = t.sha) ∧
      (s.sha.busy = true → TakesFault (exec .init s) s ⟨.busyAccess, 0x600#11, 1#32⟩)

/-- The accept step of COMPRESS, with its faults in their order: BUSY (4), HVALID (9), BLK (10). (Where HVALID = 1 and HASH
holds a ⊥, which no run reaches, that it accepts all the same is the model's choice: log entry 16.) -/
def Obligations.CompressAcceptsABlock : Prop :=
  ∀ s : State, s.sha.fault = none →
    (s.sha.busy = true → TakesFault (exec .compress s) s ⟨.busyAccess, 0x600#11, 2#32⟩) ∧
      (s.sha.busy = false → s.sha.hvalid = false →
        TakesFault (exec .compress s) s ⟨.hashNotValid, 0x600#11, 2#32⟩) ∧
      (s.sha.busy = false → s.sha.hvalid = true → (∃ j : Fin 16, s.sha.blk[j] = none) →
        TakesFault (exec .compress s) s ⟨.blockNotWritten, 0x600#11, 2#32⟩) ∧
      ∀ m : Vector Word 16, s.sha.busy = false → s.sha.hvalid = true → (∀ j : Fin 16, s.sha.blk[j] = some m[j]) →
        ∃ t, exec .compress s = .next t ∧
          t.sha = { s.sha with
            w := Vector.ofFn fun j : Fin 64 => if h : j.val < 16 then some (m[j.val]'h) else s.sha.w[j]
            v := s.sha.hash
            t := some 0#7
            blk := Vector.replicate 16 none
            busy := true }

/-- R154: RD_STATUS returns BUSY in bit 0, HVALID in bit 1 and zeros above, whether BUSY = 1 or not, whatever its
WDATA, and changes nothing. -/
def Obligations.RdStatusReturnsTheFlags : Prop :=
  ∀ (s : State) (wdata : Word), s.sha.fault = none →
    ∃ t x, exec (.rdStatus wdata) s = .next t ∧ t.sha = s.sha ∧ t.rdata = some x ∧
      x.getLsbD 0 = s.sha.busy ∧ x.getLsbD 1 = s.sha.hvalid ∧ ∀ k, 2 ≤ k → x.getLsbD k = false

/-- R155: WR_BLK writes BLK[j] and nothing else; while BUSY = 1 it faults with code 4. -/
def Obligations.WrBlkWritesOneWord : Prop :=
  ∀ (s : State) (j : Fin 16) (x : Word), s.sha.fault = none →
    (s.sha.busy = false → ∃ t, exec (.wrBlk j x) s = .next t ∧ t.sha = { s.sha with blk := s.sha.blk.set j (some x) }) ∧
      (s.sha.busy = true →
        TakesFault (exec (.wrBlk j x) s) s ⟨.busyAccess, BitVec.ofNat 11 (0x640 + 4 * j.val), x⟩)

/-- R156: RD_BLK returns BLK[j] and changes nothing; a ⊥ is code 10, BUSY = 1 is code 4. -/
def Obligations.RdBlkReturnsTheWord : Prop :=
  ∀ (s : State) (j : Fin 16) (wdata : Word), s.sha.fault = none →
    (∀ x, s.sha.busy = false → s.sha.blk[j] = some x →
      ∃ t, exec (.rdBlk j wdata) s = .next t ∧ t.sha = s.sha ∧ t.rdata = some x) ∧
      (s.sha.busy = false → s.sha.blk[j] = none →
        TakesFault (exec (.rdBlk j wdata) s) s ⟨.blockNotWritten, BitVec.ofNat 11 (0x240 + 4 * j.val), wdata⟩) ∧
      (s.sha.busy = true →
        TakesFault (exec (.rdBlk j wdata) s) s ⟨.busyAccess, BitVec.ofNat 11 (0x240 + 4 * j.val), wdata⟩)

/-- R157: RD_HASH returns HASH[i] and changes nothing; HVALID = 0 is code 9, BUSY = 1 is code 4. -/
def Obligations.RdHashReturnsTheWord : Prop :=
  ∀ (s : State) (i : Fin 8) (wdata : Word), s.sha.fault = none →
    (∀ x, s.sha.busy = false → s.sha.hvalid = true → s.sha.hash[i] = some x →
      ∃ t, exec (.rdHash i wdata) s = .next t ∧ t.sha = s.sha ∧ t.rdata = some x) ∧
      (s.sha.busy = false → s.sha.hvalid = false →
        TakesFault (exec (.rdHash i wdata) s) s ⟨.hashNotValid, BitVec.ofNat 11 (0x280 + 4 * i.val), wdata⟩) ∧
      (s.sha.busy = true →
        TakesFault (exec (.rdHash i wdata) s) s ⟨.busyAccess, BitVec.ofNat 11 (0x280 + 4 * i.val), wdata⟩)

/-- Whatever the host issues while BUSY = 1, but a read of STATUS, it takes a fault, with a code of at most 4; and an
operation other than RD_STATUS takes code 4. -/
def Obligations.BusyAdmitsOnlyStatusReads : Prop :=
  ∀ (s : State) (tx : Tx), s.sha.fault = none → s.sha.busy = true → (∀ x, decode tx ≠ .ok (.rdStatus x)) →
    ∃ code : FaultCode, code.number ≤ 4 ∧ TakesFault (hostAccess tx s) s ⟨code, txDesc tx, txWdata tx⟩ ∧
      ∀ i, decode tx = .ok i → code = .busyAccess

/-- R202: an access that faults changes nothing but FAULT, which takes a code and the access's own DESC and WDATA; it
returns no RDATA; and from then on neither the host nor the engine has a step. -/
def Obligations.FaultingAccessSetsOnlyFault : Prop :=
  ∀ (s t : State) (tx : Tx), hostAccess tx s = .next t → t.sha.fault ≠ none →
    (∃ code, t.sha = { s.sha with fault := some ⟨code, txDesc tx, txWdata tx⟩ } ∧
      step t = .fault (.runEnded ⟨code, txDesc tx, txWdata tx⟩) ∧
      engineStep t = .fault (.runEnded ⟨code, txDesc tx, txWdata tx⟩) ∧
      ∀ tx', hostAccess tx' t = .fault (.runEnded ⟨code, txDesc tx, txWdata tx⟩)) ∧
    t.rdata = none

/-- R158: an access that does not fault changes exactly what its operation writes, by the transaction's word: INIT's
two, COMPRESS's five, a block write's one, and a read nothing. One that faults changes nothing but FAULT. -/
def Obligations.HostAccessFrame : Prop :=
  ∀ (s t : State) (tx : Tx), hostAccess tx s = .next t →
    (t.sha.fault = none →
      (tx = 0x60000000000#43 ∧ t.sha = s.sha) ∨
      (tx = 0x60000000001#43 ∧ t.sha = { s.sha with hash := t.sha.hash, hvalid := true }) ∨
      (tx = 0x60000000002#43 ∧
        t.sha = { s.sha with w := t.sha.w, v := t.sha.v, t := t.sha.t, blk := t.sha.blk, busy := true }) ∨
      (∃ j : Fin 16, txDesc tx = BitVec.ofNat 11 (0x640 + 4 * j.val) ∧
        t.sha = { s.sha with blk := s.sha.blk.set j (some (txWdata tx)) }) ∨
      (txDir tx = false ∧ t.sha = s.sha)) ∧
      (t.sha.fault ≠ none → t.sha = { s.sha with fault := t.sha.fault })

/-- No operation and no access touches what the host has still to issue or the order of turns, and what the host has
been given grows by the RDATA of the access, if any; an engine step touches the core alone. (Those fields are the
model's choice: log entries 3, 4, 5 and 17.) -/
def Obligations.ExecKeepsTheHostsSide : Prop :=
  (∀ (i : Instr) (s t : State), exec i s = .next t →
    t.pending = s.pending ∧ t.turns = s.turns ∧ t.received = s.received ++ t.rdata.toList) ∧
  (∀ (tx : Tx) (s t : State), hostAccess tx s = .next t →
    t.pending = s.pending ∧ t.turns = s.turns ∧ t.received = s.received ++ t.rdata.toList) ∧
  ∀ s t : State, engineStep s = .next t → t = { s with sha := t.sha }

/-- A block word reads back as it was last written, and the other fifteen are as they were. -/
def Obligations.BlkReadsBackTheLastWrite : Prop :=
  ∀ (s : State) (j : Fin 16) (x y : Word), s.sha.fault = none → s.sha.busy = false →
    ∃ t u, exec (.wrBlk j x) s = .next t ∧ exec (.rdBlk j y) t = .next u ∧ u.rdata = some x ∧
      ∀ k : Fin 16, k ≠ j → t.sha.blk[k] = s.sha.blk[k]

/-! ### Who writes what -/

/-- HASH changes only in INIT's host step and in the engine's final step. -/
def Obligations.OnlyInitAndFinalStepWriteHash : Prop :=
  ∀ s t : State, step s = .next t → t.sha.hash ≠ s.sha.hash →
    (s.sha.busy = false ∧ ∃ rest, s.pending = .tx 0x60000000001#43 :: rest) ∨
      (s.sha.busy = true ∧ s.sha.t = some 64#7 ∧ t.sha.busy = false)

/-- HVALID changes only from 0 to 1, and only in INIT's host step. -/
def Obligations.OnlyInitSetsHvalid : Prop :=
  ∀ s t : State, step s = .next t → t.sha.hvalid ≠ s.sha.hvalid →
    s.sha.hvalid = false ∧ s.sha.busy = false ∧ ∃ rest, s.pending = .tx 0x60000000001#43 :: rest

/-- BUSY rises only in the accept step of a COMPRESS and falls only in the final step. -/
def Obligations.OnlyAcceptAndFinalStepWriteBusy : Prop :=
  ∀ s t : State, step s = .next t → t.sha.busy ≠ s.sha.busy →
    (s.sha.busy = false ∧ t.sha.t = some 0#7 ∧ ∃ rest, s.pending = .tx 0x60000000002#43 :: rest) ∨
      (s.sha.busy = true ∧ s.sha.t = some 64#7 ∧ t.sha.t = none)

/-- The round counter is kept, set to 0 from ⊥, advanced by exactly 1 below 64, or set from 64 to ⊥: no step advances
it past 64. -/
def Obligations.CounterAdvancesByOne : Prop :=
  ∀ s t : State, s.Inv → step s = .next t →
    t.sha.t = s.sha.t ∨ (s.sha.t = none ∧ t.sha.t = some 0#7) ∨
      (∃ n m, s.sha.t = some n ∧ t.sha.t = some m ∧ n.toNat ≤ 63 ∧ m.toNat = n.toNat + 1) ∨
      (s.sha.t = some 64#7 ∧ t.sha.t = none)

/-- While a compression runs, no step, the host's or the engine's, changes HASH, BLK or HVALID. -/
def Obligations.IsolationDuringACompression : Prop :=
  ∀ s t : State, s.Inv → s.sha.busy = true → step s = .next t → t.sha.busy = true →
    t.sha.hash = s.sha.hash ∧ (∀ j : Fin 16, t.sha.blk[j] = none) ∧ t.sha.hvalid = true

/-! ### The engine -/

/-- R130: the round function, every new value made from the old ones. -/
def Obligations.RoundFunction : Prop :=
  ∀ (t : Fin 64) (a b c d e f g h w : Word),
    let t1 := h + bigSigma1 e + ch e f g + K[t] + w
    let t2 := bigSigma0 a + maj a b c
    sha256Round t #v[a, b, c, d, e, f, g, h] w = #v[t1 + t2, a, b, c, d + t1, e, f, g]

/-- R133: the round step with counter n. It expands W[n] where n ≥ 16, performs round n with W[n], advances the
counter, and touches nothing else. -/
def Obligations.RoundStepEffect : Prop :=
  ∀ (s : State) (n : Counter) (hn : n.toNat < 64) (v : Vector Word 8),
    s.sha.fault = none → s.sha.busy = true → s.sha.t = some n → (∀ i : Fin 8, s.sha.v[i] = some v[i]) →
    (∀ x, n.toNat < 16 → s.sha.w[n.toNat] = some x →
      ∃ t, engineStep s = .next t ∧
        t.sha = { s.sha with
          v := Vector.ofFn fun i => some (sha256Round ⟨n.toNat, hn⟩ v x)[i]
          t := some (n + 1#7) }) ∧
    ∀ w2 w7 w15 w16, 16 ≤ n.toNat → s.sha.w[n.toNat - 2] = some w2 → s.sha.w[n.toNat - 7] = some w7 →
      s.sha.w[n.toNat - 15] = some w15 → s.sha.w[n.toNat - 16] = some w16 →
      let x := smallSigma1 w2 + w7 + smallSigma0 w15 + w16
      ∃ t, engineStep s = .next t ∧
        t.sha = { s.sha with
          w := s.sha.w.set n.toNat (some x)
          v := Vector.ofFn fun i => some (sha256Round ⟨n.toNat, hn⟩ v x)[i]
          t := some (n + 1#7) }

/-- R134: the final step adds the working registers into HASH word by word, sets a-h, W and t to ⊥ and BUSY to 0, and
touches nothing else. The last clause is the corner case R134 itself marks as derived: where the invariant held, HVALID
is 1 and BLK all ⊥ after it. -/
def Obligations.FinalStepEffect : Prop :=
  ∀ (s : State) (h v : Vector Word 8),
    s.sha.fault = none → s.sha.busy = true → s.sha.t = some 64#7 → (∀ i : Fin 8, s.sha.hash[i] = some h[i]) →
    (∀ i : Fin 8, s.sha.v[i] = some v[i]) →
    ∃ t, engineStep s = .next t ∧
      t.sha = { s.sha with
        hash := Vector.ofFn fun i : Fin 8 => some (h[i] + v[i])
        v := Vector.replicate 8 none
        w := Vector.replicate 64 none
        t := none
        busy := false } ∧
      (s.Inv → t.sha.hvalid = true ∧ ∀ j : Fin 16, t.sha.blk[j] = none)

/-- After the accept step and k of its 64 round steps: the counter is k, W holds the schedule's words below max(16, k)
and ⊥ above, a-h hold the variables after k rounds, and HASH, BLK, BUSY and HVALID are as the accept step left them. -/
def Obligations.EngineAfterKRounds : Prop :=
  ∀ (s : State) (h : Vector Word 8) (m : Vector Word 16) (k : Nat),
    s.Inv → s.sha.fault = none → s.sha.busy = false → s.sha.hvalid = true → (∀ i : Fin 8, s.sha.hash[i] = some h[i]) →
    (∀ j : Fin 16, s.sha.blk[j] = some m[j]) → k ≤ 64 →
    ∃ t u, exec .compress s = .next t ∧ engineSteps k t = .next u ∧ u.sha.t = some (BitVec.ofNat 7 k) ∧
      (∀ i : Fin 8, u.sha.v[i] = some (roundsUpTo (schedule m) h k)[i]) ∧
      (∀ j : Fin 64, u.sha.w[j] = if j.val < 16 ∨ j.val < k then some (schedule m)[j] else none) ∧
      u.sha.hash = s.sha.hash ∧ (∀ j : Fin 16, u.sha.blk[j] = none) ∧ u.sha.busy = true ∧ u.sha.hvalid = true

/-- COMPRESS and the 65 engine steps after it leave HASH = Compress(old HASH, old BLK) and BUSY = 0, BLK and the
engine's registers at ⊥, and everything else as it was. -/
def Obligations.CompressionIsCompress : Prop :=
  ∀ (s : State) (h : Vector Word 8) (m : Vector Word 16),
    s.sha.fault = none → s.sha.busy = false → s.sha.hvalid = true → (∀ i : Fin 8, s.sha.hash[i] = some h[i]) →
    (∀ j : Fin 16, s.sha.blk[j] = some m[j]) →
    ∃ t u, exec .compress s = .next t ∧ engineSteps 65 t = .next u ∧
      u.sha = { s.sha with
        hash := Vector.ofFn fun i => some (compress h m)[i]
        v := Vector.replicate 8 none
        w := Vector.replicate 64 none
        blk := Vector.replicate 16 none
        t := none
        busy := false }

/-- INIT and then any blocks, each written, compressed and waited for, leave HASH = Chain(H0, blocks), from every idle
state. -/
def Obligations.SubmittedBlocksChain : Prop :=
  ∀ (s : State) (blocks : List (Vector Word 16)), s.sha.fault = none → s.sha.busy = false →
    ∃ t u, exec .init s = .next t ∧ submitBlocks blocks t = .next u ∧ u.sha.fault = none ∧ u.sha.busy = false ∧
      u.sha.hvalid = true ∧ ∀ i : Fin 8, u.sha.hash[i] = some (chain H0 blocks)[i]

/-- The message schedule: the block's words, then the recurrence of R121. -/
def Obligations.ScheduleRecurrence : Prop :=
  ∀ (m : Vector Word 16) (t : Fin 64),
    (∀ h : t.val < 16, (schedule m)[t] = m[t.val]'h) ∧
      (16 ≤ t.val → (schedule m)[t] = smallSigma1 (schedule m)[t.val - 2] + (schedule m)[t.val - 7]
        + smallSigma0 (schedule m)[t.val - 15] + (schedule m)[t.val - 16])

/-! ### The two agents -/

/-- A step runs the decoded operation: when the host's next transaction decodes to `i`, and it is the host that moves,
the step is `exec i` with that transaction taken off what the host has still to issue. -/
def Obligations.StepRunsTheDecodedOperation : Prop :=
  ∀ (s : State) (w : Tx) (rest : List HostLine) (i : Instr),
    s.sha.fault = none → s.pending = .tx w :: rest → decode w = .ok i →
    (s.sha.busy = false → step s = exec i { s with pending := rest }) ∧
      ∀ turns, s.sha.busy = true → s.turns = .host :: turns →
        step s = exec i { s with pending := rest, turns := turns }

/-- The same for a transaction that decodes to no operation: the step takes its fault. -/
def Obligations.StepTakesADecodeFault : Prop :=
  ∀ (s : State) (w : Tx) (rest : List HostLine) (code : FaultCode),
    s.sha.fault = none → s.pending = .tx w :: rest → decode w = .error code →
    (s.sha.busy = false → TakesFault (step s) s ⟨code, txDesc w, txWdata w⟩) ∧
      (s.sha.busy = true → (∃ turns, s.turns = .host :: turns) →
        TakesFault (step s) s ⟨if code.number < 4 then code else .busyAccess, txDesc w, txWdata w⟩)

/-- Who moves: with BUSY = 1 the engine, where the host has nothing to issue or `turns` does not give it the turn; with
BUSY = 0 and nothing to issue, nobody. (The field `turns` and the idle step are the model's choice: log entries 4
and 6.) -/
def Obligations.StepMovesTheEngine : Prop :=
  ∀ s : State, s.sha.fault = none →
    (s.sha.busy = true →
      (s.pending = [] → step s = engineStep s) ∧
      (s.turns = [] → step s = engineStep s) ∧
      ∀ turns, s.pending ≠ [] → s.turns = .engine :: turns → step s = engineStep { s with turns := turns }) ∧
      (s.sha.busy = false → s.pending = [] → step s = .next s)

/-- POLL reads STATUS once a turn and stays until it reads BUSY = 0. -/
def Obligations.PollRepeatsWhileBusy : Prop :=
  ∀ (s : State) (rest : List HostLine), s.sha.fault = none → s.pending = .poll :: rest →
    (s.sha.busy = false →
      ∃ t, step s = .next t ∧ t.sha = s.sha ∧ t.rdata = some (statusWord s.sha) ∧ t.pending = rest ∧
        t.received = s.received ++ [statusWord s.sha]) ∧
      ∀ turns, s.sha.busy = true → s.turns = .host :: turns →
        ∃ t, step s = .next t ∧ t.sha = s.sha ∧ t.rdata = some (statusWord s.sha) ∧ t.pending = .poll :: rest ∧
          t.turns = turns ∧ t.received = s.received ++ [statusWord s.sha]

/-- The machine given a table word runs that operation at once. (How a transaction reaches the machine is the model's
choice: log entry 3.) -/
def Obligations.FetchWordRunsTheOperation : Prop :=
  ∀ (s : State) (nbits w : Nat) (i : Instr),
    s.sha.fault = none → decodeTableWord nbits w = some i → step (s.withFetchWord nbits w) = exec i s

/-- While a compression runs, a read of STATUS and an engine step give the same core in either order. -/
def Obligations.StatusReadCommutesWithTheEngine : Prop :=
  ∀ (s : State) (x : Word), s.Inv → s.sha.fault = none → s.sha.busy = true →
    ∃ a b c d, exec (.rdStatus x) s = .next a ∧ engineStep a = .next b ∧
      engineStep s = .next c ∧ exec (.rdStatus x) c = .next d ∧ b.sha = d.sha

/-- A host that polls reads BUSY = 0 in the end, for every order of turns, and then finds the core the engine alone
would have left: the number of polls changes nothing. (That the engine always gets its turn is the model's form of the
spec's fairness: log entry 4.) -/
def Obligations.PollFindsTheFinishedCompression : Prop :=
  ∀ (s : State) (n : Counter) (rest : List HostLine), s.Inv → s.sha.fault = none → s.sha.busy = true →
    s.sha.t = some n → s.pending = .poll :: rest →
    ∃ k e u, engineSteps (65 - n.toNat) s = .next e ∧ core.run k s = .next u ∧ u.sha = e.sha ∧ u.sha.busy = false ∧
      u.pending = rest ∧ u.rdata = some 2#32

/-- A compression ends within a bounded number of steps, whatever the host issues meanwhile, or the run ends in a
fault of the host's. (The bound counts the model's turns: log entry 4.) -/
def Obligations.CompressionEndsOrFaults : Prop :=
  ∀ s : State, s.Inv → s.sha.fault = none → s.sha.busy = true →
    ∃ k u, k ≤ s.turns.length + 65 ∧ core.run k s = .next u ∧ (u.sha.busy = false ∨ u.sha.fault ≠ none)

/-- The digest procedure, for any blocks and every order of turns, from every idle state: it faults nowhere, leaves
HASH = Chain(H0, blocks), and the last eight words it has given the host are those, with the host's remaining lines
untouched. -/
def Obligations.DigestProcedureChains : Prop :=
  ∀ (s : State) (blocks : List (Vector Word 16)) (rest : List HostLine),
    s.Inv → s.sha.fault = none → s.sha.busy = false → s.pending = digestLines blocks ++ rest →
    ∃ k u, core.run k s = .next u ∧ u.sha.fault = none ∧ u.sha.busy = false ∧ u.pending = rest ∧
      (∀ i : Fin 8, u.sha.hash[i] = some (chain H0 blocks)[i]) ∧ digestWords u.received = some (chain H0 blocks)

/-- Digest(text), run on the core and formatted from the words the host was given, is the formatted Chain of the
message's blocks, for every text, from every idle state and for every order of turns; and it is refused exactly where
the host procedure refuses the text. -/
def Obligations.DigestRunsOnTheCore : Prop :=
  ∀ (units : List Nat) (s : State), s.Inv → s.sha.fault = none → s.sha.busy = false →
    digestOnCore units s = digest units

/-! ### The arithmetic unit -/

/-- R101: ADD32 is addition modulo 2^32. -/
def Obligations.Add32IsModular : Prop :=
  (∀ x y : Word, (add32 x y).toNat = (x.toNat + y.toNat) % 2 ^ 32) ∧
    add32 0xFFFFFFFF#32 0x00000001#32 = 0#32 ∧ add32 0x80000000#32 0x80000000#32 = 0#32 ∧
    add32 0xFFFFFFFF#32 0xFFFFFFFF#32 = 0xFFFFFFFE#32 ∧ (∀ x : Word, add32 x 0#32 = x) ∧
    add32 0x6A09E667#32 0x5BE0CD19#32 = 0xC5EAB380#32

/-- A sum of several words is their sum modulo 2^32, in any order. -/
def Obligations.SumInAnyOrder : Prop :=
  (∀ xs : List Word, (sum32 xs).toNat = (xs.map BitVec.toNat).sum % 2 ^ 32) ∧
    ∀ xs ys : List Word, xs.Perm ys → sum32 xs = sum32 ys

/-- R103: bit k of rotr(x, n) is bit (k + n) mod 32 of x. -/
def Obligations.RotrRotatesBits : Prop :=
  ∀ (x : Word) (n k : Nat), 1 ≤ n → n ≤ 31 → k < 32 → (rotr x n).getLsbD k = x.getLsbD ((k + n) % 32)

/-- R104: shr(x, n) = floor(x / 2^n), and its bits from 32 - n up are 0. -/
def Obligations.ShrIsFloor : Prop :=
  ∀ (x : Word) (n : Nat), (shr x n).toNat = x.toNat / 2 ^ n ∧ ∀ k, 32 - n ≤ k → (shr x n).getLsbD k = false

/-- R108, R109: each bit of Ch is y's where x has 1 and z's where x has 0; each bit of Maj is the majority. -/
def Obligations.ChChoosesAndMajVotes : Prop :=
  ∀ (x y z : Word) (k : Nat), k < 32 →
    (ch x y z).getLsbD k = (if x.getLsbD k then y.getLsbD k else z.getLsbD k) ∧
      ((maj x y z).getLsbD k = true ↔
        2 ≤ (x.getLsbD k).toNat + (y.getLsbD k).toNat + (z.getLsbD k).toNat)

/-- R110-R113: the four sigma functions, bit by bit: the shifts bring in zeros, the rotations wrap. -/
def Obligations.SigmaFunctionsBitwise : Prop :=
  ∀ (x : Word) (k : Nat), k < 32 →
    let b := fun n => x.getLsbD ((k + n) % 32)
    let z := fun n => decide (k + n < 32) && x.getLsbD (k + n)
    (bigSigma0 x).getLsbD k = (b 2 ^^ b 13 ^^ b 22) ∧ (bigSigma1 x).getLsbD k = (b 6 ^^ b 11 ^^ b 25) ∧
      (smallSigma0 x).getLsbD k = (b 7 ^^ b 18 ^^ z 3) ∧ (smallSigma1 x).getLsbD k = (b 17 ^^ b 19 ^^ z 10)

/-! ### The host's procedure and the platform -/

/-- PackBE puts the byte with the lower index in the more significant place, and `wordByte` takes it out again. -/
def Obligations.PackedBytesComeBack : Prop :=
  ∀ b : Fin 4 → Byte,
    (packBE (b 0) (b 1) (b 2) (b 3)).toNat
      = (b 0).toNat * 2 ^ 24 + (b 1).toNat * 2 ^ 16 + (b 2).toNat * 2 ^ 8 + (b 3).toNat ∧
    ∀ k : Fin 4, wordByte (packBE (b 0) (b 1) (b 2) (b 3)) k.val = b k

/-- The padding (R173), with the number of its blocks, which the spec marks as derived (R175). -/
def Obligations.PaddingFillsWholeBlocks : Prop :=
  ∀ b : List Byte,
    ((padZeros b.length : Int) = (55 - (b.length : Int)) % 64) ∧ padZeros b.length ≤ 63 ∧
      pad b = b ++ 0x80#8 :: (List.replicate (padZeros b.length) 0x00#8 ++ be64 (8 * b.length)) ∧
      (pad b).length = b.length + 1 + padZeros b.length + 8 ∧ 64 ∣ (pad b).length ∧
      (pad b).length = 64 * blockCount b.length

/-- Every digest is 64 lowercase hexadecimal digits, and a text is refused exactly when a code unit is above 0xFF or it
is longer than 2^29 - 1 bytes. -/
def Obligations.DigestShape : Prop :=
  ∀ units : List Nat,
    (∀ d, digest units = some d → d.length = 64 ∧ ∀ c ∈ d, c ∈ "0123456789abcdef".toList) ∧
      (digest units = none ↔ (∃ c ∈ units, 0xFF < c) ∨ 2 ^ 29 - 1 < units.length)

/-- Stepping one instance leaves every other instance as it was. -/
def Obligations.InstancesShareNothing : Prop :=
  ∀ (k : Nat) (cores cores' : List State), Platform.step k cores = some cores' →
    (∃ s t, cores[k]? = some s ∧ step s = .next t ∧ cores'[k]? = some t) ∧ ∀ j, j ≠ k → cores'[j]? = cores[j]?
end

