-- ==== Sys2Proof/Laws/Compression.lean ====
section
/-! SUPPORT. The sums as additions of bit vectors, and the message schedule word by word. A later proof rewrites with
these and never lets `schedule` or `compress` unfold. -/

namespace Sys2Proof.Machine

theorem add32_eq (x y : Word) : add32 x y = x + y := by
  apply BitVec.eq_of_toNat_eq
  simp [add32]

theorem sum32_nil : sum32 [] = 0#32 := rfl

theorem foldl_add32 (xs : List Word) (a : Word) : xs.foldl add32 a = a + sum32 xs := by
  induction xs generalizing a with
  | nil => simp [sum32]
  | cons x xs ih =>
    rw [sum32, List.foldl_cons, List.foldl_cons, ih, ih (add32 0#32 x), add32_eq, add32_eq, BitVec.zero_add,
      BitVec.add_assoc]

theorem sum32_cons (x : Word) (xs : List Word) : sum32 (x :: xs) = x + sum32 xs := by
  rw [sum32, List.foldl_cons, foldl_add32, add32_eq, BitVec.zero_add]

variable (m : Vector Word 16)

theorem scheduleUpTo_succ (n : Nat) (h : 16 + n < 64) :
    scheduleUpTo m (n + 1) = (scheduleUpTo m n).set (16 + n) (expandWord (scheduleUpTo m n)[16 + n - 2]
      (scheduleUpTo m n)[16 + n - 7] (scheduleUpTo m n)[16 + n - 15] (scheduleUpTo m n)[16 + n - 16]) := by
  rw [scheduleUpTo]
  exact dif_pos h

/-- Expanding further words leaves the words already expanded as they were. -/
theorem scheduleUpTo_prefix (n j : Nat) (hj : j < 64) (hjn : j < 16 + n) (k : Nat) :
    (scheduleUpTo m (n + k))[j] = (scheduleUpTo m n)[j] := by
  induction k with
  | zero => rfl
  | succ k ih =>
    by_cases h : 16 + (n + k) < 64
    · rw [← Nat.add_assoc, scheduleUpTo_succ _ _ h, Vector.getElem_set_ne _ _ (by omega), ih]
    · rw [← Nat.add_assoc, scheduleUpTo]
      simp only [dif_neg h]
      exact ih

theorem roundsUpTo_succ (w : Vector Word 64) (v : Vector Word 8) (n : Nat) (h : n < 64) :
    roundsUpTo w v (n + 1) = sha256Round ⟨n, h⟩ (roundsUpTo w v n) w[n] := by
  rw [roundsUpTo]
  exact dif_pos h

end Sys2Proof.Machine
end

