-- ==== Sys2Proof/Laws/Decode.lean ====
section
/-! SUPPORT. A transaction's fields. -/

namespace Sys2Proof

variable (dir : Bool) (size : BitVec 2) (addr : Offset) (wdata : Word)

/-- Bit k of a transaction, by the field it lies in (30_encoding.md R71). -/
theorem getLsbD_mkTx (k : Nat) :
    (mkTx dir size addr wdata).getLsbD k =
      if k < 32 then wdata.getLsbD k
      else if k < 40 then addr.getLsbD (k - 32)
      else if k < 42 then size.getLsbD (k - 40)
      else (decide (k = 42) && dir) := by
  change BitVec.getLsbD (w := 1 + 2 + 8 + 32) (BitVec.ofBool dir ++ size ++ addr ++ wdata) k = _
  simp only [BitVec.getLsbD_append, BitVec.getLsbD_ofBool]
  split_ifs <;> first | rfl | omega | skip
  · have : k - 32 - 8 - 2 = 0 ↔ k = 42 := by omega
    simp [this]

@[simp] theorem txDir_mkTx : txDir (mkTx dir size addr wdata) = dir := by
  rw [txDir, getLsbD_mkTx]
  rfl

@[simp] theorem txSize_mkTx : txSize (mkTx dir size addr wdata) = size := by
  ext k hk
  simp only [txSize, BitVec.getElem_extractLsb', getLsbD_mkTx]
  rw [if_neg (by omega), if_neg (by omega), if_pos (by omega), Nat.add_sub_cancel_left, BitVec.getLsbD_eq_getElem hk]

@[simp] theorem txAddr_mkTx : txAddr (mkTx dir size addr wdata) = addr := by
  ext k hk
  simp only [txAddr, BitVec.getElem_extractLsb', getLsbD_mkTx]
  rw [if_neg (by omega), if_pos (by omega), Nat.add_sub_cancel_left, BitVec.getLsbD_eq_getElem hk]

@[simp] theorem txWdata_mkTx : txWdata (mkTx dir size addr wdata) = wdata := by
  ext k hk
  simp only [txWdata, BitVec.getElem_extractLsb', getLsbD_mkTx]
  rw [if_pos (by omega), Nat.zero_add, BitVec.getLsbD_eq_getElem hk]

/-- A transaction is its four fields. -/
theorem mkTx_fields (tx : Tx) : mkTx (txDir tx) (txSize tx) (txAddr tx) (txWdata tx) = tx := by
  apply BitVec.eq_of_getLsbD_eq
  intro k hk
  rw [getLsbD_mkTx]
  simp only [txDir, txSize, txAddr, txWdata, BitVec.getLsbD_extractLsb', Nat.zero_add]
  split_ifs with h1 h2 h3
  · simp [h1]
  · rw [show 32 + (k - 32) = k by omega]
    simp [show k - 32 < 8 by omega]
  · rw [show 40 + (k - 40) = k by omega]
    simp [show k - 40 < 2 by omega]
  · obtain rfl : k = 42 := by omega
    simp

/-- A transaction's descriptor is DIR ‖ SIZE ‖ ADDR (R71). -/
theorem txDesc_mkTx : txDesc (mkTx dir size addr wdata) = BitVec.ofBool dir ++ size ++ addr := by
  apply BitVec.eq_of_getLsbD_eq
  intro k hk
  simp only [txDesc, BitVec.getLsbD_extractLsb', getLsbD_mkTx]
  change _ = BitVec.getLsbD (w := 1 + 2 + 8) (BitVec.ofBool dir ++ size ++ addr) k
  simp only [BitVec.getLsbD_append, BitVec.getLsbD_ofBool]
  rw [if_neg (show ¬ 32 + k < 32 by omega)]
  split_ifs <;> first | omega | skip
  · simp [hk]
  · simp [hk, show 32 + k - 40 = k - 8 by omega]
  · obtain rfl : k = 10 := by omega
    simp

end Sys2Proof
end

