-- ==== Sys2Proof/Laws/Operands.lean ====
section
/-! SUPPORT. Register files of words or ⊥, read entry by entry. -/

namespace Sys2Proof.Machine

variable {n : Nat}

@[simp] theorem unwritten_get (i : Nat) (h : i < n) : (unwritten n)[i] = none := by
  simp [unwritten]

@[simp] theorem written_get (xs : Vector Word n) (i : Nat) (h : i < n) : (written xs)[i] = some xs[i] := by
  simp [written]

/-- A register file holds words everywhere exactly when it is `written` of them. -/
theorem allWords_eq_some_iff {xs : Vector (Option Word) n} {ws : Vector Word n} :
    allWords xs = some ws ↔ xs = written ws := by
  unfold allWords
  constructor
  · intro h
    split at h
    next hall =>
      cases h
      ext i hi : 1
      obtain ⟨x, hx⟩ := Option.isSome_iff_exists.1 (hall ⟨i, hi⟩)
      simp only [Fin.getElem_fin] at hx
      simp [hx]
    next => cases h
  · rintro rfl
    rw [if_pos (by intro i; simp)]
    congr 1
    ext i hi : 1
    simp

@[simp] theorem allWords_written (ws : Vector Word n) : allWords (written ws) = some ws :=
  allWords_eq_some_iff.2 rfl

/-- A register file with no ⊥ is `written` of some words. -/
theorem exists_written_of_isSome {xs : Vector (Option Word) n} (h : ∀ i : Fin n, xs[i].isSome = true) :
    ∃ ws, xs = written ws := by
  exact ⟨Vector.ofFn fun i => xs[i].getD 0#32, allWords_eq_some_iff.1 (if_pos h)⟩

theorem loadSchedule_get_low (blk : Vector (Option Word) 16) (w : Vector (Option Word) 64) (j : Nat) (h : j < 16) :
    (loadSchedule blk w)[j] = blk[j] := by
  simp [loadSchedule, h]

theorem loadSchedule_get_high (blk : Vector (Option Word) 16) (w : Vector (Option Word) 64) (j : Nat) (h : j < 64)
    (h16 : 16 ≤ j) : (loadSchedule blk w)[j] = w[j] := by
  simp [loadSchedule, Nat.not_lt.2 h16]

end Sys2Proof.Machine
end

