-- ==== Sys2Proof/Laws/State.lean ====
section
/-! SUPPORT. What each named update of the core does to each field: a later proof reads a field of an updated core by
`simp` and never unfolds an update. -/

namespace Sys2Proof.Machine

variable (c : ShaState)

@[simp] theorem ShaState.loadH0_hash : (c.loadH0).hash = written H0 := rfl
@[simp] theorem ShaState.loadH0_hvalid : (c.loadH0).hvalid = true := rfl
@[simp] theorem ShaState.loadH0_v : (c.loadH0).v = c.v := rfl
@[simp] theorem ShaState.loadH0_w : (c.loadH0).w = c.w := rfl
@[simp] theorem ShaState.loadH0_blk : (c.loadH0).blk = c.blk := rfl
@[simp] theorem ShaState.loadH0_t : (c.loadH0).t = c.t := rfl
@[simp] theorem ShaState.loadH0_busy : (c.loadH0).busy = c.busy := rfl
@[simp] theorem ShaState.loadH0_fault : (c.loadH0).fault = c.fault := rfl

@[simp] theorem ShaState.accept_hash : (c.accept).hash = c.hash := rfl
@[simp] theorem ShaState.accept_hvalid : (c.accept).hvalid = c.hvalid := rfl
@[simp] theorem ShaState.accept_v : (c.accept).v = c.hash := rfl
@[simp] theorem ShaState.accept_w : (c.accept).w = loadSchedule c.blk c.w := rfl
@[simp] theorem ShaState.accept_blk : (c.accept).blk = unwritten 16 := rfl
@[simp] theorem ShaState.accept_t : (c.accept).t = some 0#7 := rfl
@[simp] theorem ShaState.accept_busy : (c.accept).busy = true := rfl
@[simp] theorem ShaState.accept_fault : (c.accept).fault = c.fault := rfl

@[simp] theorem ShaState.setBlk_hash (j : Fin 16) (x : Word) : (c.setBlk j x).hash = c.hash := rfl
@[simp] theorem ShaState.setBlk_hvalid (j : Fin 16) (x : Word) : (c.setBlk j x).hvalid = c.hvalid := rfl
@[simp] theorem ShaState.setBlk_v (j : Fin 16) (x : Word) : (c.setBlk j x).v = c.v := rfl
@[simp] theorem ShaState.setBlk_w (j : Fin 16) (x : Word) : (c.setBlk j x).w = c.w := rfl
@[simp] theorem ShaState.setBlk_blk (j : Fin 16) (x : Word) : (c.setBlk j x).blk = c.blk.set j (some x) := rfl
@[simp] theorem ShaState.setBlk_t (j : Fin 16) (x : Word) : (c.setBlk j x).t = c.t := rfl
@[simp] theorem ShaState.setBlk_busy (j : Fin 16) (x : Word) : (c.setBlk j x).busy = c.busy := rfl
@[simp] theorem ShaState.setBlk_fault (j : Fin 16) (x : Word) : (c.setBlk j x).fault = c.fault := rfl

section
variable (n : Counter) (h : n.toNat < 64) (x : Word) (u : Vector Word 8)

@[simp] theorem ShaState.afterRound_hash : (c.afterRound n h x u).hash = c.hash := rfl
@[simp] theorem ShaState.afterRound_hvalid : (c.afterRound n h x u).hvalid = c.hvalid := rfl
@[simp] theorem ShaState.afterRound_v : (c.afterRound n h x u).v = written u := rfl
@[simp] theorem ShaState.afterRound_w : (c.afterRound n h x u).w = if n.toNat < 16 then c.w else c.w.set n.toNat (some x) := rfl
@[simp] theorem ShaState.afterRound_blk : (c.afterRound n h x u).blk = c.blk := rfl
@[simp] theorem ShaState.afterRound_t : (c.afterRound n h x u).t = some (n + 1#7) := rfl
@[simp] theorem ShaState.afterRound_busy : (c.afterRound n h x u).busy = c.busy := rfl
@[simp] theorem ShaState.afterRound_fault : (c.afterRound n h x u).fault = c.fault := rfl

end

@[simp] theorem ShaState.afterFinal_hash (h : Vector Word 8) : (c.afterFinal h).hash = written h := rfl
@[simp] theorem ShaState.afterFinal_hvalid (h : Vector Word 8) : (c.afterFinal h).hvalid = c.hvalid := rfl
@[simp] theorem ShaState.afterFinal_v (h : Vector Word 8) : (c.afterFinal h).v = unwritten 8 := rfl
@[simp] theorem ShaState.afterFinal_w (h : Vector Word 8) : (c.afterFinal h).w = unwritten 64 := rfl
@[simp] theorem ShaState.afterFinal_blk (h : Vector Word 8) : (c.afterFinal h).blk = c.blk := rfl
@[simp] theorem ShaState.afterFinal_t (h : Vector Word 8) : (c.afterFinal h).t = none := rfl
@[simp] theorem ShaState.afterFinal_busy (h : Vector Word 8) : (c.afterFinal h).busy = false := rfl
@[simp] theorem ShaState.afterFinal_fault (h : Vector Word 8) : (c.afterFinal h).fault = c.fault := rfl

@[simp] theorem ShaState.setFault_hash (r : FaultRecord) : (c.setFault r).hash = c.hash := rfl
@[simp] theorem ShaState.setFault_hvalid (r : FaultRecord) : (c.setFault r).hvalid = c.hvalid := rfl
@[simp] theorem ShaState.setFault_v (r : FaultRecord) : (c.setFault r).v = c.v := rfl
@[simp] theorem ShaState.setFault_w (r : FaultRecord) : (c.setFault r).w = c.w := rfl
@[simp] theorem ShaState.setFault_blk (r : FaultRecord) : (c.setFault r).blk = c.blk := rfl
@[simp] theorem ShaState.setFault_t (r : FaultRecord) : (c.setFault r).t = c.t := rfl
@[simp] theorem ShaState.setFault_busy (r : FaultRecord) : (c.setFault r).busy = c.busy := rfl
@[simp] theorem ShaState.setFault_fault (r : FaultRecord) : (c.setFault r).fault = some r := rfl

end Sys2Proof.Machine
end

