-- ==== Sys2Proof/Laws/Ops.lean ====
section
/-! SUPPORT. What guards a step, in each case, and everything a guarded operation can answer. -/

namespace Sys2Proof.Machine

variable {s t : State} {i : Instr} {body : Outcome}

theorem unlessEnded_ended {r : FaultRecord} (h : s.sha.fault = some r) :
    unlessEnded s body = .fault (.runEnded r) := by
  simp [unlessEnded, h]

theorem unlessEnded_live (h : s.sha.fault = none) : unlessEnded s body = body := by
  simp [unlessEnded, h]

/-- If a guarded step answers a next state, the run had not ended and its body answered it. -/
theorem unlessEnded_next (h : unlessEnded s body = .next t) : s.sha.fault = none ∧ body = .next t := by
  unfold unlessEnded at h
  split at h
  · cases h
  · exact ⟨‹_›, h⟩

theorem unlessBusy_ended {r : FaultRecord} (h : s.sha.fault = some r) :
    unlessBusy i s body = .fault (.runEnded r) := unlessEnded_ended h

theorem unlessBusy_busy (h : s.sha.fault = none) (hb : s.sha.busy = true) :
    unlessBusy i s body = raiseBy i .busyAccess s := by
  simp [unlessBusy, unlessEnded_live h, hb]

theorem unlessBusy_idle (h : s.sha.fault = none) (hb : s.sha.busy = false) : unlessBusy i s body = body := by
  simp [unlessBusy, unlessEnded_live h, hb]

/-- If an operation answers a next state, it took fault 4 (BUSY = 1) or its body answered it (BUSY = 0). -/
theorem unlessBusy_next (h : unlessBusy i s body = .next t) :
    s.sha.fault = none ∧
      ((s.sha.busy = true ∧ raiseBy i .busyAccess s = .next t) ∨ (s.sha.busy = false ∧ body = .next t)) := by
  obtain ⟨hf, h⟩ := unlessEnded_next h
  refine ⟨hf, ?_⟩
  cases hb : s.sha.busy <;> simp [hb] at h
  · exact .inr ⟨rfl, h⟩
  · exact .inl ⟨rfl, h⟩

/-- Taking a fault: the whole next state. -/
theorem raiseBy_next {code : FaultCode} (h : raiseBy i code s = .next t) :
    t = { s with sha := s.sha.setFault ⟨code, txDesc (encode i), txWdata (encode i)⟩, rdata := none } := by
  simpa [raiseBy, raiseFault] using h.symm

end Sys2Proof.Machine
end

