-- ==== Sys2Proof/Laws/Engine.lean ====
section
/-! SUPPORT. Everything an engine step can do, said once. -/

namespace Sys2Proof.Machine

variable {s t : State}

/-- If a round step answers a next state, it had its schedule word and its working variables, and this is the state. -/
theorem roundStep_next {n : Counter} {h : n.toNat < 64} (hr : roundStep n h s = .next t) :
    ∃ x v, scheduleWord s.sha.w ⟨n.toNat, h⟩ = some x ∧ s.sha.v = written v ∧
      t = { s with sha := s.sha.afterRound n h x (sha256Round ⟨n.toNat, h⟩ v x) } := by
  unfold roundStep at hr
  split at hr
  next x v hx hv => exact ⟨x, v, hx, allWords_eq_some_iff.1 hv, by simpa using hr.symm⟩
  next => cases hr

/-- If the final step answers a next state, HASH and a-h held words, and this is the state. -/
theorem finalStep_next (hr : finalStep s = .next t) :
    ∃ h v, s.sha.hash = written h ∧ s.sha.v = written v ∧
      t = { s with sha := s.sha.afterFinal (addState h v) } := by
  unfold finalStep at hr
  split at hr
  next h v hh hv => exact ⟨h, v, allWords_eq_some_iff.1 hh, allWords_eq_some_iff.1 hv, by simpa using hr.symm⟩
  next => cases hr

/-- If an engine step answers a next state, the run had not ended, and it was the round step of the counter's value or,
at 64, the final step. -/
theorem engineStep_next (h : engineStep s = .next t) :
    s.sha.fault = none ∧
      ((∃ n, ∃ hn : n.toNat < 64, s.sha.t = some n ∧ roundStep n hn s = .next t) ∨
        (s.sha.t = some 64#7 ∧ finalStep s = .next t)) := by
  obtain ⟨hf, h⟩ := unlessEnded_next h
  refine ⟨hf, ?_⟩
  split at h
  next => cases h
  next n hn =>
    split at h
    next hlt => exact .inl ⟨n, hlt, hn, h⟩
    next =>
      split at h
      next h64 => exact .inr ⟨by rw [hn, h64], h⟩
      next => cases h

end Sys2Proof.Machine
end

