-- ==== Sys2Proof/Laws/Exec.lean ====
section
/-! SUPPORT. Everything an operation can do, said once. -/

namespace Sys2Proof.Machine

/-- What operation `i` does where it faults nowhere: the core afterwards and the RDATA it returns. -/
inductive Performs : Instr → ShaState → ShaState → Option Word → Prop
  | nop (c : ShaState) : Performs .nop c c none
  | init (c : ShaState) : Performs .init c c.loadH0 none
  | compress (c : ShaState) (hv : c.hvalid = true) (hb : ∀ j : Fin 16, c.blk[j] ≠ none) :
      Performs .compress c c.accept none
  | rdStatus (c : ShaState) (x : Word) : Performs (.rdStatus x) c c (some (statusWord c))
  | wrBlk (c : ShaState) (j : Fin 16) (x : Word) : Performs (.wrBlk j x) c (c.setBlk j x) none
  | rdBlk (c : ShaState) (j : Fin 16) (x y : Word) (h : c.blk[j] = some y) : Performs (.rdBlk j x) c c (some y)
  | rdHash (c : ShaState) (k : Fin 8) (x y : Word) (hv : c.hvalid = true) (h : c.hash[k] = some y) :
      Performs (.rdHash k x) c c (some y)

/-- If `exec` answers a next state, the run had not ended, and the operation either performed its own effect (with
BUSY = 0, or as a read of STATUS) or took one fault, recording its own transaction. The host keeps its RDATA, if any; the rest of its side is as it was. -/
theorem exec_next {i : Instr} {s t : State} (h : exec i s = .next t) :
    s.sha.fault = none ∧
      ((∃ code, t = { s with sha := s.sha.setFault ⟨code, txDesc (encode i), txWdata (encode i)⟩, rdata := none }) ∨
        ((s.sha.busy = false ∨ ∃ x, i = .rdStatus x) ∧
          ∃ c rd, Performs i s.sha c rd ∧ t = { s with sha := c, rdata := rd, received := s.received ++ rd.toList })) := by
  cases i with
  | rdStatus x =>
    obtain ⟨hf, h⟩ := unlessEnded_next h
    exact ⟨hf, .inr ⟨.inr ⟨x, rfl⟩, _, _, .rdStatus _ x, by simpa [reply] using h.symm⟩⟩
  | nop =>
    obtain ⟨hf, ⟨-, h⟩ | ⟨hb, h⟩⟩ := unlessBusy_next h
    · exact ⟨hf, .inl ⟨_, raiseBy_next h⟩⟩
    · exact ⟨hf, .inr ⟨.inl hb, _, _, .nop _, by simpa [done] using h.symm⟩⟩
  | init =>
    obtain ⟨hf, ⟨-, h⟩ | ⟨hb, h⟩⟩ := unlessBusy_next h
    · exact ⟨hf, .inl ⟨_, raiseBy_next h⟩⟩
    · exact ⟨hf, .inr ⟨.inl hb, _, _, .init _, by simpa [done] using h.symm⟩⟩
  | compress =>
    obtain ⟨hf, ⟨-, h⟩ | ⟨hb, h⟩⟩ := unlessBusy_next h
    · exact ⟨hf, .inl ⟨_, raiseBy_next h⟩⟩
    · split at h
      · exact ⟨hf, .inl ⟨_, raiseBy_next h⟩⟩
      · split at h
        · exact ⟨hf, .inl ⟨_, raiseBy_next h⟩⟩
        · next hv hblk =>
          exact ⟨hf, .inr ⟨.inl hb, _, _, .compress _ (by simpa using hv) (fun j hj => hblk ⟨j, hj⟩),
            by simpa [done] using h.symm⟩⟩
  | wrBlk j x =>
    obtain ⟨hf, ⟨-, h⟩ | ⟨hb, h⟩⟩ := unlessBusy_next h
    · exact ⟨hf, .inl ⟨_, raiseBy_next h⟩⟩
    · exact ⟨hf, .inr ⟨.inl hb, _, _, .wrBlk _ j x, by simpa [done] using h.symm⟩⟩
  | rdBlk j x =>
    obtain ⟨hf, ⟨-, h⟩ | ⟨hb, h⟩⟩ := unlessBusy_next h
    · exact ⟨hf, .inl ⟨_, raiseBy_next h⟩⟩
    · split at h
      · exact ⟨hf, .inl ⟨_, raiseBy_next h⟩⟩
      · next y hy => exact ⟨hf, .inr ⟨.inl hb, _, _, .rdBlk _ j x y hy, by simpa [reply] using h.symm⟩⟩
  | rdHash k x =>
    obtain ⟨hf, ⟨-, h⟩ | ⟨hb, h⟩⟩ := unlessBusy_next h
    · exact ⟨hf, .inl ⟨_, raiseBy_next h⟩⟩
    · split at h
      · exact ⟨hf, .inl ⟨_, raiseBy_next h⟩⟩
      · next hv =>
        split at h
        · exact ⟨hf, .inl ⟨_, raiseBy_next h⟩⟩
        · next y hy =>
          exact ⟨hf, .inr ⟨.inl hb, _, _, .rdHash _ k x y (by simpa using hv) hy,
            by simpa [reply] using h.symm⟩⟩

end Sys2Proof.Machine
end

