-- ==== Sys2Proof/Laws/HostProcedure.lean ====
section
/-! SUPPORT. The words a host has kept, read back. -/

namespace Sys2Proof.Machine

/-- The eight words a host was given last are d0, …, d7, whatever it was given before. -/
theorem digestWords_append (earlier : List Word) (d : Vector Word 8) :
    digestWords (earlier ++ (List.finRange 8).map fun i => d[i]) = some d := by
  unfold digestWords
  rw [dif_pos (by simp)]
  congr 1
  ext i hi : 1
  simp

end Sys2Proof.Machine
end

