-- ==== Sys2Proof/Laws/PerInstr.lean ====
section
/-! SUPPORT. One fact about the syntax of every operation: its word is its opcode-table row's. -/

namespace Sys2Proof.Laws.EncodingInRow

/-- The encoding of `i` matches the row of its mnemonic and no other row (30_encoding.md R75). -/
def Statement (i : Instr) : Prop :=
  ∀ row ∈ opcodeTable, row.covers (encode i) = (row.mnemonic == i.mnemonic)

theorem nop : Statement .nop := by unfold Statement; decide

theorem init : Statement .init := by unfold Statement; decide

theorem compress : Statement .compress := by unfold Statement; decide

/-- Masking a transaction masks its fields. -/
theorem mkTx_and (dir dir' : Bool) (size size' : BitVec 2) (addr addr' : Offset) (x y : Word) :
    mkTx dir size addr x &&& mkTx dir' size' addr' y
      = mkTx (dir && dir') (size &&& size') (addr &&& addr') (x &&& y) := by
  apply BitVec.eq_of_getLsbD_eq
  intro k _
  simp only [BitVec.getLsbD_and, getLsbD_mkTx]
  split_ifs
  · rfl
  · rfl
  · rfl
  · cases decide (k = 42) <;> rfl

/-- Two transactions are equal exactly when their fields are. -/
theorem mkTx_inj (dir dir' : Bool) (size size' : BitVec 2) (addr addr' : Offset) (x y : Word) :
    mkTx dir size addr x = mkTx dir' size' addr' y ↔ dir = dir' ∧ size = size' ∧ addr = addr' ∧ x = y := by
  constructor
  · intro h
    exact ⟨by simpa using congrArg txDir h, by simpa using congrArg txSize h, by simpa using congrArg txAddr h,
      by simpa using congrArg txWdata h⟩
  · rintro ⟨rfl, rfl, rfl, rfl⟩
    rfl

/-- The opcode table with every mask and pattern split into its fields. -/
theorem opcodeTable_split : opcodeTable = [
    ⟨"NOP",       mkTx true 3 0xFF 0xFFFFFFFF, mkTx true 2 0x00 0⟩,
    ⟨"INIT",      mkTx true 3 0xFF 0xFFFFFFFF, mkTx true 2 0x00 1⟩,
    ⟨"COMPRESS",  mkTx true 3 0xFF 0xFFFFFFFF, mkTx true 2 0x00 2⟩,
    ⟨"RD_STATUS", mkTx true 3 0xFF 0, mkTx false 2 0x04 0⟩,
    ⟨"WR_BLK",    mkTx true 3 0xC3 0, mkTx true 2 0x40 0⟩,
    ⟨"RD_BLK",    mkTx true 3 0xC3 0, mkTx false 2 0x40 0⟩,
    ⟨"RD_HASH",   mkTx true 3 0xE3 0, mkTx false 2 0x80 0⟩] := by decide

/-- Whether a row covers a transaction, field by field. -/
theorem covers_mkTx (name : String) (dir : Bool) (size : BitVec 2) (addr : Offset) (x m y : Word) (dir' : Bool)
    (am ap : Offset) :
    OpcodeRow.covers ⟨name, mkTx true 3 am m, mkTx dir' 2 ap y⟩ (mkTx dir size addr x)
      = (decide (dir = dir') && decide (size &&& 3 = 2) && decide (addr &&& am = ap) && decide (x &&& m = y)) := by
  rw [Bool.eq_iff_iff]
  simp [OpcodeRow.covers, mkTx_and, mkTx_inj, and_assoc]

/-- A block register's offset under the rows' address masks. -/
theorem blk_offset_masks (j : Fin 16) :
    (Reg.blk j).offset &&& 0xFF#8 ≠ 0x00#8 ∧ (Reg.blk j).offset &&& 0xFF#8 ≠ 0x04#8 ∧
      (Reg.blk j).offset &&& 0xC3#8 = 0x40#8 ∧ (Reg.blk j).offset &&& 0xE3#8 ≠ 0x80#8 := by
  revert j
  decide

/-- A hash register's offset under the rows' address masks. -/
theorem hash_offset_masks (i : Fin 8) :
    (Reg.hash i).offset &&& 0xFF#8 ≠ 0x00#8 ∧ (Reg.hash i).offset &&& 0xFF#8 ≠ 0x04#8 ∧
      (Reg.hash i).offset &&& 0xC3#8 ≠ 0x40#8 ∧ (Reg.hash i).offset &&& 0xE3#8 = 0x80#8 := by
  revert i
  decide

theorem rdStatus (x : Word) : Statement (.rdStatus x) := by
  simp only [Statement, opcodeTable_split, encode, List.forall_mem_cons, covers_mkTx]
  simp [size4, Reg.offset, Instr.mnemonic]

theorem wrBlk (j : Fin 16) (x : Word) : Statement (.wrBlk j x) := by
  obtain ⟨h0, h4, h40, h80⟩ := blk_offset_masks j
  simp only [Statement, opcodeTable_split, encode, List.forall_mem_cons, covers_mkTx]
  simp [size4, Instr.mnemonic, h0, h40]

theorem rdBlk (j : Fin 16) (x : Word) : Statement (.rdBlk j x) := by
  obtain ⟨h0, h4, h40, h80⟩ := blk_offset_masks j
  simp only [Statement, opcodeTable_split, encode, List.forall_mem_cons, covers_mkTx]
  simp [size4, Instr.mnemonic, h4, h40, h80]

theorem rdHash (i : Fin 8) (x : Word) : Statement (.rdHash i x) := by
  obtain ⟨h0, h4, h40, h80⟩ := hash_offset_masks i
  simp only [Statement, opcodeTable_split, encode, List.forall_mem_cons, covers_mkTx]
  simp [size4, Instr.mnemonic, h4, h40, h80]

end Sys2Proof.Laws.EncodingInRow
end

