-- ==== Sys2Proof/Laws/Run.lean ====
section
/-! SUPPORT. Runs of several steps, cut into their steps. -/

namespace Sys2Proof.Machine

/-! ### Runs of the machine -/

theorem run_zero (M : Host.Core) (s : M.State) : M.run 0 s = .next s := rfl

theorem run_succ (M : Host.Core) (k : Nat) (s t : M.State) (h : M.step s = .next t) :
    M.run (k + 1) s = M.run k t := by
  rw [Host.Core.run, h]

/-- A run of a + b steps is a run of a steps and then one of b steps. -/
theorem run_add (M : Host.Core) (a b : Nat) (s t : M.State) (h : M.run a s = .next t) :
    M.run (a + b) s = M.run b t := by
  induction a generalizing s with
  | zero =>
    cases h
    rw [Nat.zero_add]
  | succ a ih =>
    rw [Nat.add_right_comm]
    rw [Host.Core.run] at h ⊢
    split at h
    next s' _ => exact ih s' h
    next => cases h
    next => cases h

/-! ### Runs of the engine -/

/-- Engine steps may be counted from the end too. -/
theorem engineSteps_succ (k : Nat) (s t : State) (h : engineSteps k s = .next t) :
    engineSteps (k + 1) s = engineStep t := by
  induction k generalizing s with
  | zero =>
    cases h
    rw [engineSteps]
    cases engineStep t <;> rfl
  | succ k ih =>
    rw [engineSteps] at h ⊢
    split at h
    next s' _ => exact ih s' h
    next => cases h
    next => cases h

/-- An engine step reads and writes the core only: with the same core it does the same to the core. -/
theorem engineStep_same_core {s t s' : State} (h : engineStep s = .next t) (hs : s'.sha = s.sha) :
    engineStep s' = .next { s' with sha := t.sha } ∧ t = { s with sha := t.sha } := by
  obtain ⟨hf, ⟨n, hn, ht, hr⟩ | ⟨ht, hr⟩⟩ := engineStep_next h
  · obtain ⟨x, v, hx, hv, rfl⟩ := roundStep_next hr
    refine ⟨?_, rfl⟩
    unfold engineStep
    rw [unlessEnded_live (by rw [hs]; exact hf), hs, ht]
    dsimp only
    rw [dif_pos hn]
    simp only [roundStep, hs, hx, hv, allWords_written]
  · obtain ⟨h, v, hh, hv, rfl⟩ := finalStep_next hr
    refine ⟨?_, rfl⟩
    unfold engineStep
    rw [unlessEnded_live (by rw [hs]; exact hf), hs, ht]
    dsimp only
    rw [dif_neg (by decide), if_pos rfl]
    simp only [finalStep, hs, hh, hv, allWords_written]

end Sys2Proof.Machine
end

