-- ==== Sys2Proof/Laws/Step.lean ====
section
/-! SUPPORT. Everything a step can do, said once. -/

namespace Sys2Proof.Machine

variable {s t : State}

/-- If a transaction answers a next state, it was an operation that performed its effect, or it took one fault that
records a code, its descriptor and its WDATA. -/
theorem rejectWord_next {code : FaultCode} {tx : Tx} (h : rejectWord code tx s = .next t) :
    s.sha.fault = none ∧
      ∃ c, t = { s with sha := s.sha.setFault ⟨c, txDesc tx, txWdata tx⟩, rdata := none } := by
  obtain ⟨hf, h⟩ := unlessEnded_next h
  exact ⟨hf, _, by simpa [raiseFault] using h.symm⟩

/-- POLL's branch changes only what the host has still to issue. -/
theorem pollAgain_sha (s : State) : (pollAgain s).sha = s.sha := by
  unfold pollAgain
  split
  · split <;> rfl
  · rfl

theorem pollAgain_turns (s : State) : (pollAgain s).turns = s.turns := by
  unfold pollAgain
  split
  · split <;> rfl
  · rfl

theorem pollAgain_received (s : State) : (pollAgain s).received = s.received := by
  unfold pollAgain
  split
  · split <;> rfl
  · rfl

/-- The loop's read of STATUS is the transaction `RD STATUS`. -/
theorem decode_poll : decode (memRead Reg.status.offset) = .ok (.rdStatus 0#32) := by
  decide

/-- If a step answers a next state, the run had not ended, and: nothing could move; or the engine moved, alone or by
its turn; or the host issued its next line, with BUSY = 0 or by its turn. -/
theorem step_next (h : step s = .next t) :
    s.sha.fault = none ∧
      ((s.pending = [] ∧ s.sha.busy = false ∧ t = s) ∨
        (s.sha.busy = true ∧ ∃ turns, engineStep { s with turns := turns } = .next t) ∨
        (∃ line rest turns, s.pending = line :: rest ∧ (s.sha.busy = false → turns = s.turns) ∧
          hostStep line { s with pending := rest, turns := turns } = .next t)) := by
  obtain ⟨hf, h⟩ := unlessEnded_next h
  refine ⟨hf, ?_⟩
  split at h
  next hp =>
    split at h
    next hb => exact .inr (.inl ⟨hb, s.turns, h⟩)
    next hb =>
      cases h
      exact .inl ⟨hp, by simpa using hb, rfl⟩
  next line rest hp =>
    split at h
    next hb =>
      split at h
      next => exact .inr (.inl ⟨hb, s.turns, h⟩)
      next turns _ => exact .inr (.inl ⟨hb, turns, h⟩)
      next turns _ => exact .inr (.inr ⟨line, rest, turns, hp, by simp [hb], h⟩)
    next => exact .inr (.inr ⟨line, rest, s.turns, hp, fun _ => rfl, h⟩)

end Sys2Proof.Machine
end

