-- ==== Sys2Proof/Tests/Slice0.lean ====
section
/-! SUPPORT. Tests on fixed values, each expected result from the spec (30_encoding.md's tables and 95_test_vectors.md's
vectors, named at each test), and a witness for every statement that has hypotheses. -/

namespace Sys2Proof.Tests

open Sys2Proof.Machine

set_option Elab.async false


/-! ### Helpers -/

/-- The state of an outcome that is a next state. -/
def nextOf : Outcome → Option State
  | .next s => some s
  | .fault _ => none
  | .refused _ => none

/-- An outcome is a next state with a property that can be decided. -/
theorem next_with {o : Outcome} {p : State → Prop} [DecidablePred p]
    (h : (nextOf o).any (fun t => decide (p t)) = true) : ∃ t, o = .next t ∧ p t := by
  cases o with
  | next t => exact ⟨t, rfl, by simpa [nextOf] using h⟩
  | fault f => cases h
  | refused r => cases h

/-- One host access, none where it is no next state. -/
def issue (tx : Tx) (s : State) : Option State := nextOf (hostAccess tx s)

/-- 95_test_vectors.md's starting states (L2-D). Reset: -/
def resetState : State := State.reset

/-- Init: reset, then INIT. -/
def initState : State := { State.reset with sha := State.reset.sha.loadH0 }

/-- Full: init, then all sixteen block words 0. -/
def fullState : State := { initState with sha := { initState.sha with blk := written (Vector.replicate 16 0#32) } }

/-- A compression from H0 whose counter stands at `n`, the words it has loaded or expanded all 0. -/
def running (n : Counter) : State :=
  { State.reset with
    sha := { State.reset.sha with
      hash := written H0
      hvalid := true
      v := written H0
      w := Vector.ofFn fun j => if j.val < 16 ∨ j.val < n.toNat then some 0#32 else none
      t := some n
      busy := true } }

/-- Done: the zero block compressed (its HASH is row "zero block" of L2-C2). -/
def doneState : State :=
  { initState with
    sha := { initState.sha with
      hash := written #v[0xDA5698BE, 0x17B9B469, 0x62335799, 0x779FBECA, 0x8CE5D491, 0xC0D26243, 0xBAFEF9EA, 0x1837A9D8] } }

/-- A run that has ended in a fault. -/
def endedState : State := { initState with sha := initState.sha.setFault ⟨.busyAccess, 0x600#11, 0#32⟩ }

/-- The padded block of "abc" (L2-B1). -/
def abc : Vector Word 16 := #v[0x61626380, 0, 0, 0, 0, 0, 0, 0, 0, 0, 0, 0, 0, 0, 0, 0x00000018]

/-! ### Well-formedness: an ill-formed term for each check, refused -/

theorem test_wf_blk_index : (RegName.blk 16).wellFormed = false ∧ (RegName.blk 15).wellFormed = true := by decide

theorem test_wf_hash_index : (RegName.hash 8).wellFormed = false ∧ (RegName.hash 7).wellFormed = true := by decide

theorem test_wf_offset : (RegName.raw 256).wellFormed = false ∧ (RegName.raw 255).wellFormed = true := by decide

theorem test_wf_value : (AsmLine.wr .word .ctrl (2 ^ 32)).wellFormed = false ∧
    (AsmLine.wr .word .ctrl (2 ^ 32 - 1)).wellFormed = true := by decide

theorem test_wf_line_register : (AsmLine.wr .word (.blk 16) 0).wellFormed = false ∧
    (AsmLine.rd .word (.hash 8)).wellFormed = false := by decide

theorem test_wf_assembled : (Instr.rdStatus 1#32).assembled = false ∧ (Instr.rdBlk 3 1#32).assembled = false ∧
    (Instr.rdHash 3 1#32).assembled = false ∧ (Instr.wrBlk 3 1#32).assembled = true := by decide

theorem test_assemble_refuses : assemble (.wr .word (.blk 16) 0) = none := by decide

/-! ### Decoding and encoding: words written out from R71, R75 and R79 -/

/-- DIR = 1, SIZE = 10, ADDR = 0x00, WDATA = 0. -/
theorem test_decode_nop : decode 0b1_10_00000000_00000000000000000000000000000000#43 = .ok .nop := by decide

/-- DIR = 1, SIZE = 10, ADDR = 0x00, WDATA = 1. -/
theorem test_decode_init : decode 0b1_10_00000000_00000000000000000000000000000001#43 = .ok .init := by decide

/-- DIR = 1, SIZE = 10, ADDR = 0x00, WDATA = 2. -/
theorem test_decode_compress : decode 0b1_10_00000000_00000000000000000000000000000010#43 = .ok .compress := by decide

/-- DIR = 0, SIZE = 10, ADDR = 0x04, WDATA don't care. -/
theorem test_decode_rd_status : decode 0b0_10_00000100_00000000000000000000000000000101#43 = .ok (.rdStatus 5) := by
  decide

/-- DIR = 1, SIZE = 10, ADDR = 01jjjj00 with j = 0110, WDATA = 0xF000000F. -/
theorem test_decode_wr_blk :
    decode 0b1_10_01011000_11110000000000000000000000001111#43 = .ok (.wrBlk 6 0xF000000F) := by decide

/-- DIR = 0, SIZE = 10, ADDR = 01jjjj00 with j = 1001, WDATA = 0. -/
theorem test_decode_rd_blk : decode 0b0_10_01100100_00000000000000000000000000000000#43 = .ok (.rdBlk 9 0) := by decide

/-- DIR = 0, SIZE = 10, ADDR = 100iii00 with i = 110, WDATA = 0. -/
theorem test_decode_rd_hash : decode 0b0_10_10011000_00000000000000000000000000000000#43 = .ok (.rdHash 6 0) := by decide

/-- The reserved encodings of R76, each at both ends of its range. -/
theorem test_decode_reserved :
    decode 0x44000000061#43 = .error .badSize ∧ decode 0x10400000000#43 = .error .badSize ∧
      decode 0x30700000000#43 = .error .badSize ∧ decode 0x20600000000#43 = .error .misaligned ∧
      decode 0x64100000000#43 = .error .misaligned ∧ decode 0x20800000000#43 = .error .unmapped ∧
      decode 0x63C00000000#43 = .error .unmapped ∧ decode 0x2A000000000#43 = .error .unmapped ∧
      decode 0x2FC00000000#43 = .error .unmapped ∧ decode 0x60400000000#43 = .error .writeToReadOnly ∧
      decode 0x68000000000#43 = .error .writeToReadOnly ∧ decode 0x69C00000000#43 = .error .writeToReadOnly ∧
      decode 0x20000000000#43 = .error .readOfWriteOnly ∧ decode 0x60000000010#43 = .error .reservedBits ∧
      decode 0x60080000001#43 = .error .reservedBits ∧ decode 0x60000000003#43 = .error .illegalCommand ∧
      decode 0x6000000000F#43 = .error .illegalCommand := by decide

/-- R79's words. -/
theorem test_encode : encode .nop = 0x60000000000#43 ∧ encode .init = 0x60000000001#43 ∧
    encode .compress = 0x60000000002#43 ∧ encode (.rdStatus 0) = 0x20400000000#43 ∧
    encode (.wrBlk 5 0xDEADBEEF) = 0x654DEADBEEF#43 ∧ encode (.rdBlk 15 0) = 0x27C00000000#43 ∧
    encode (.rdHash 7 0) = 0x29C00000000#43 := by decide

/-- A table word as the host numbers it; a word with a bit above TX[42] is no transaction. -/
theorem test_table_word : decodeTableWord 48 0x60000000001 = some .init ∧
    decodeTableWord 43 0x27C00000000 = some (.rdBlk 15 0) ∧ decodeTableWord 48 0x860000000001 = none := by decide

/-- V11, V12, V29 as assembler lines. -/
theorem test_assemble : assemble (.wr .byte (.blk 0) 0x61) = some 0x44000000061#43 ∧
    assemble (.rd .half .status) = some 0x10400000000#43 ∧
    assemble (.wr .word (.hash 3) 0x12345678) = some 0x68C12345678#43 ∧
    assemble (.rd .word (.raw 6)) = some 0x20600000000#43 := by decide

/-- R79: BLOCK is sixteen writes, COMPRESS, POLL; RDDIGEST is eight reads. -/
theorem test_expand : (expand (.block abc)).take 1 = [.tx 0x64061626380#43] ∧
    (expand (.block abc)).drop 15 = [.tx 0x67C00000018#43, .tx 0x60000000002#43, .poll] ∧
    (expand .rddigest).drop 6 = [.tx 0x29800000000#43, .tx 0x29C00000000#43] := by decide +kernel

/-! ### One access each (L2-D) -/

/-- V5. -/
theorem test_nop : issue 0x60000000000#43 resetState = some resetState := by decide +kernel

/-- V21. -/
theorem test_nop_busy : (issue 0x60000000000#43 (running 0)).map (·.sha.fault)
    = some (some ⟨.busyAccess, 0x600, 0x00000000⟩) := by decide +kernel

/-- V2, V7: after INIT, STATUS is 2 and HASH7 is 0x5BE0CD19; BLK is untouched. -/
theorem test_init : ((issue 0x60000000001#43 resetState).bind (issue 0x20400000000#43)).map (·.rdata) = some (some 2#32) ∧
    ((issue 0x60000000001#43 resetState).bind (issue 0x29C00000000#43)).map (·.rdata) = some (some 0x5BE0CD19#32) := by
  decide +kernel

/-- INIT twice equals INIT once, also where HASH held a chaining value (R152). -/
theorem test_init_twice : issue 0x60000000001#43 doneState = some initState ∧
    issue 0x60000000001#43 initState = some initState := by decide +kernel

/-- The accept step: STATUS is 3 (V3), W[15] holds BLK[15], W[16] is still ⊥, BLK is consumed, t = 0. -/
theorem test_compress : (issue 0x60000000002#43 { initState with sha := { initState.sha with blk := written abc } }).map
    (fun s => (statusWord s.sha, s.sha.w[15], s.sha.w[16], s.sha.blk[0], s.sha.t, s.sha.v[7]))
      = some (3#32, some 0x00000018#32, none, none, some 0#7, some 0x5BE0CD19#32) := by decide +kernel

/-- V37 (9 before 10), V39, V22. -/
theorem test_compress_faults :
    (issue 0x60000000002#43 resetState).map (·.sha.fault) = some (some ⟨.hashNotValid, 0x600, 2⟩) ∧
      (issue 0x60000000002#43 initState).map (·.sha.fault) = some (some ⟨.blockNotWritten, 0x600, 2⟩) ∧
      (issue 0x60000000002#43 (running 0)).map (·.sha.fault) = some (some ⟨.busyAccess, 0x600, 2⟩) := by decide +kernel

/-- V1, V2, V3. -/
theorem test_rd_status : (issue 0x20400000000#43 resetState).map (·.rdata) = some (some 0#32) ∧
    (issue 0x20400000000#43 initState).map (·.rdata) = some (some 2#32) ∧
    (issue 0x20400000000#43 (running 0)).map (·.rdata) = some (some 3#32) := by decide +kernel

/-- V9: BLK[5] takes the word, and no RDATA is returned. -/
theorem test_wr_blk : issue 0x654DEADBEEF#43 resetState
    = some { resetState with sha := resetState.sha.setBlk 5 0xDEADBEEF#32 } := by decide +kernel

/-- V23. -/
theorem test_wr_blk_busy : (issue 0x64000000000#43 (running 0)).map (·.sha.fault)
    = some (some ⟨.busyAccess, 0x640, 0⟩) := by decide +kernel

/-- V10. -/
theorem test_rd_blk : (issue 0x27C00000000#43 fullState).map (·.rdata) = some (some 0#32) := by decide +kernel

/-- V40. -/
theorem test_rd_blk_unwritten : issue 0x24000000000#43 resetState
    = some { resetState with sha := resetState.sha.setFault ⟨.blockNotWritten, 0x240, 0⟩ } := by decide +kernel

/-- V6, V8. -/
theorem test_rd_hash : (issue 0x28000000000#43 initState).map (·.rdata) = some (some 0x6A09E667#32) ∧
    (issue 0x28000000000#43 doneState).map (·.rdata) = some (some 0xDA5698BE#32) := by decide +kernel

/-- V38, V24: after V24 the engine still holds t = 0. -/
theorem test_rd_hash_faults :
    (issue 0x28000000000#43 resetState).map (·.sha.fault) = some (some ⟨.hashNotValid, 0x280, 0⟩) ∧
      issue 0x28000000000#43 (running 0)
        = some { running 0 with sha := (running 0).sha.setFault ⟨.busyAccess, 0x280, 0⟩ } := by decide +kernel

/-- V14, V20, V25, V26, V27: the order of causes while BUSY = 1. -/
theorem test_priority_busy :
    (issue 0x08000000000#43 (running 0)).map (·.sha.fault) = some (some ⟨.badSize, 0x080, 0⟩) ∧
      (issue 0x2FC00000000#43 (running 0)).map (·.sha.fault) = some (some ⟨.unmapped, 0x2FC, 0⟩) ∧
      (issue 0x68000000000#43 (running 0)).map (·.sha.fault) = some (some ⟨.busyAccess, 0x680, 0⟩) ∧
      (issue 0x20000000000#43 (running 0)).map (·.sha.fault) = some (some ⟨.busyAccess, 0x200, 0⟩) ∧
      (issue 0x60400000000#43 (running 0)).map (·.sha.fault) = some (some ⟨.busyAccess, 0x604, 0⟩) := by decide +kernel

/-- V29, V31, V33, V34, V35. -/
theorem test_faults_idle :
    (issue 0x68C12345678#43 initState).map (·.sha.fault) = some (some ⟨.writeToReadOnly, 0x68C, 0x12345678⟩) ∧
      (issue 0x20000000000#43 initState).map (·.sha.fault) = some (some ⟨.readOfWriteOnly, 0x200, 0⟩) ∧
      (issue 0x60000000013#43 initState).map (·.sha.fault) = some (some ⟨.reservedBits, 0x600, 0x13⟩) ∧
      (issue 0x60080000001#43 initState).map (·.sha.fault) = some (some ⟨.reservedBits, 0x600, 0x80000001⟩) ∧
      (issue 0x60000000003#43 initState).map (·.sha.fault) = some (some ⟨.illegalCommand, 0x600, 3⟩) := by
  decide +kernel

/-! ### The arithmetic unit (L2-A) -/

theorem test_add32 : add32 0x12345678 0x87654321 = 0x99999999 ∧ add32 0xFFFFFFFF 1 = 0 ∧
    sum32 [0xFFFFFFFF, 0xFFFFFFFF, 0xFFFFFFFF, 0xFFFFFFFF, 0xFFFFFFFF] = 0xFFFFFFFB := by decide

theorem test_rotr : rotr 0x12345678 7 = 0xF02468AC ∧ rotr 0x00000001 2 = 0x40000000 ∧
    rotr 0x80000000 31 = 0x00000001 := by decide

theorem test_shr : shr 0x12345678 3 = 0x02468ACF ∧ shr 0x80000000 10 = 0x00200000 := by decide

theorem test_ch_maj : ch 0x510E527F 0x9B05688C 0x1F83D9AB = 0x1F85C98C ∧
    maj 0x6A09E667 0xBB67AE85 0x3C6EF372 = 0x3A6FE667 := by decide

theorem test_sigmas : bigSigma0 0x12345678 = 0x66146474 ∧ bigSigma1 0x12345678 = 0x3561ABDA ∧
    smallSigma0 0x12345678 = 0xE7FCE6EE ∧ smallSigma1 0x12345678 = 0xA1F78649 := by decide

/-! ### Schedule, rounds, compression (L2-B, L2-C) -/

/-- L2-B1. -/
theorem test_schedule : (schedule abc)[17] = 0x000F0000 ∧ (schedule abc)[18] = 0x7DA86405 ∧
    (schedule abc)[63] = 0x12B1EDEB := by decide +kernel

/-- R130's example. -/
theorem test_round : sha256Round 0 H0 0x61626380
    = #v[0x5D6AEBCD, 0x6A09E667, 0xBB67AE85, 0x3C6EF372, 0xFA2A4622, 0x510E527F, 0x9B05688C, 0x1F83D9AB] := by
  decide +kernel

/-- R133's example: the round step with t = 0 of "abc". -/
theorem test_round_step : (nextOf (engineStep { running 0 with sha :=
    { (running 0).sha with w := (running 0).sha.w.set 0 (some 0x61626380#32) } })).map
      (fun s => (s.sha.v[0], s.sha.v[4], s.sha.t)) = some (some 0x5D6AEBCD#32, some 0xFA2A4622#32, some 1#7) := by
  decide +kernel

/-- R134's example: the final step of "abc", HASH[0]. -/
theorem test_final_step : (nextOf (engineStep { running 64 with sha :=
    { (running 64).sha with v := (running 64).sha.v.set 0 (some 0x506E3058#32) } })).map
      (fun s => (s.sha.hash[0], s.sha.v[0], s.sha.w[63], s.sha.t, s.sha.busy))
        = some (some 0xBA7816BF#32, none, none, none, false) := by decide +kernel

/-- R131's example, vector L1-2. -/
theorem test_compress_abc : compress H0 abc
    = #v[0xBA7816BF, 0x8F01CFEA, 0x414140DE, 0x5DAE2223, 0xB00361A3, 0x96177A9C, 0xB410FF61, 0xF20015AD] := by
  decide +kernel

/-! ### The host's procedure (L2-E) and the platform -/

/-- L2-E1's z and number of blocks, at the boundaries. -/
theorem test_padding : [0, 3, 55, 56, 63, 64, 119, 120, 130].map (fun n => (padZeros n, blockCount n))
    = [(55, 1), (52, 1), (0, 1), (63, 2), (56, 2), (55, 2), (0, 2), (63, 3), (53, 3)] := by decide

/-- R177, R178 on "abc": the message's block, and L2-E5's string. -/
theorem test_message_blocks : messageBlocks [0x61, 0x62, 0x63] = some [abc] := by decide +kernel

theorem test_format : formatDigest
    #v[0x00000000, 0x0000000F, 0xA0000000, 0xFFFFFFFF, 0x01234567, 0x89ABCDEF, 0x00000001, 0x10000000]
      = "000000000000000fa0000000ffffffff0123456789abcdef0000000110000000".toList := by decide +kernel

/-- L2-E4: a code unit above 0xFF is refused; 0xFF is one byte. -/
theorem test_encode_text : encodeText [0x61, 0x100] = none ∧ encodeText [0xE9, 0xFF] = some [0xE9#8, 0xFF#8] := by decide

/-- L1-1: the digest of the empty string. -/
theorem test_digest_empty : digest []
    = some "e3b0c44298fc1c149afbf4c8996fb92427ae41e4649b934ca495991b7852b855".toList := by decide +kernel

/-- L1-1 again, on the core, from an idle core that holds another digest and with the host polling thrice too early. -/
theorem test_digest_on_core : digestOnCore [] { doneState with turns := [.engine, .host, .host, .engine, .host] }
    = some "e3b0c44298fc1c149afbf4c8996fb92427ae41e4649b934ca495991b7852b855".toList := by decide +kernel

/-- R57, R58 on HASH0 = 0xBA7816BF: bytes 0 and 3. -/
theorem test_digest_byte : digestByte (Vector.replicate 8 0xBA7816BF#32) 0 = 0xBA#8 ∧
    digestByte (Vector.replicate 8 0xBA7816BF#32) 3 = 0xBF#8 ∧ packBE 0x61 0x62 0x63 0x80 = 0x61626380#32 := by decide

/-! ### Witnesses: for each statement with hypotheses, states and operands that meet them, clause by clause -/

/-- A state whose host has these lines to issue and these turns. -/
def withHost (s : State) (pending : List HostLine) (turns : List Agent) : State :=
  { s with pending := pending, turns := turns }

/-- Idle states: after reset, and with all of BLK written. -/
theorem witness_idle : (resetState.Inv ∧ resetState.sha.fault = none ∧ resetState.sha.busy = false) ∧
    fullState.Inv ∧ fullState.sha.fault = none ∧ fullState.sha.busy = false :=
  ⟨⟨by decide +kernel, rfl, rfl⟩, by decide +kernel, rfl, rfl⟩

/-- Running states: before the first and the last round step, and before the final step. -/
theorem witness_running : ((running 0).Inv ∧ (running 63).Inv ∧ (running 64).Inv) ∧
    ∀ n, (running n).sha.fault = none ∧ (running n).sha.busy = true ∧ (running n).sha.t = some n :=
  ⟨⟨by decide +kernel, by decide +kernel, by decide +kernel⟩, fun _ => ⟨rfl, rfl, rfl⟩⟩

theorem witness_EncodeDecodeAgree : decode 0x67C00000018#43 = .ok (.wrBlk 15 0x18#32) ∧
    decode 0x29CFFFFFFFF#43 = .ok (.rdHash 7 0xFFFFFFFF#32) := by decide

theorem witness_EachRowSelectsItsWords :
    ∃ row ∈ opcodeTable, row.covers 0x67C00000018#43 = true ∧ row.covers 0x68000000000#43 = false :=
  ⟨⟨"WR_BLK", 0x7C300000000#43, 0x64000000000#43⟩, by decide, by decide, by decide⟩

theorem witness_AccessFollowsTheTestOrder : resetState.sha.fault = none ∧ (running 0).sha.fault = none ∧
    decodeWithBusy resetState.sha.busy 0x60000000000#43 = .ok .nop ∧
    decodeWithBusy (running 0).sha.busy 0x60000000000#43 = .error .busyAccess ∧
    decodeWithBusy (running 0).sha.busy 0x20400000000#43 = .ok (.rdStatus 0) := by decide +kernel

/-- Each class of R76 at the ends of its range. -/
theorem witness_IllegalTransactionsFault : (resetState.sha.fault = none ∧ (running 0).sha.fault = none) ∧
    (∀ row ∈ opcodeTable, row.covers 0x60400000000#43 = false) ∧
    (txSize 0x44000000061#43 ≠ 0b10#2 ∧ txSize 0x30700000000#43 ≠ 0b10#2) ∧
    (txSize 0x20600000000#43 = 0b10#2 ∧ (txAddr 0x20600000000#43).toNat % 4 ≠ 0) ∧
    (txSize 0x2FF00000000#43 = 0b10#2 ∧ (txAddr 0x2FF00000000#43).toNat % 4 ≠ 0) ∧
    (txSize 0x20800000000#43 = 0b10#2 ∧ (txAddr 0x20800000000#43).toNat = 0x08) ∧
    (txSize 0x63C00000000#43 = 0b10#2 ∧ (txAddr 0x63C00000000#43).toNat = 0x3C) ∧
    (txSize 0x2A000000000#43 = 0b10#2 ∧ (txAddr 0x2A000000000#43).toNat = 0xA0) ∧
    (txSize 0x2FC00000000#43 = 0b10#2 ∧ (txAddr 0x2FC00000000#43).toNat = 0xFC) ∧
    (txDesc 0x60400000000#43 = 0x604#11 ∧ txDesc 0x68000000000#43 = BitVec.ofNat 11 (0x680 + 4 * (0 : Fin 8).val) ∧
      txDesc 0x69C00000000#43 = BitVec.ofNat 11 (0x680 + 4 * (7 : Fin 8).val)) ∧
    txDesc 0x20000000000#43 = 0x200#11 ∧
    (txDesc 0x60000000010#43 = 0x600#11 ∧ (txWdata 0x60000000010#43).toNat = 16) ∧
    (txDesc 0x600FFFFFFFF#43 = 0x600#11 ∧ (txWdata 0x600FFFFFFFF#43).toNat = 2 ^ 32 - 1) ∧
    (txDesc 0x60000000003#43 = 0x600#11 ∧ (txWdata 0x60000000003#43).toNat = 3) ∧
    (txDesc 0x6000000000F#43 = 0x600#11 ∧ (txWdata 0x6000000000F#43).toNat = 15) :=
  ⟨⟨rfl, rfl⟩, by decide, by decide, by decide, by decide, by decide, by decide, by decide, by decide, by decide,
    by decide, by decide, by decide, by decide, by decide⟩

/-- An idle step, a host step, a round step, a final step. -/
theorem witness_StepKeepsTheInvariant :
    (resetState.Inv ∧ ∃ t, step resetState = .next t ∧ True) ∧
      ((withHost fullState [.tx 0x60000000002#43] []).Inv ∧
        ∃ t, step (withHost fullState [.tx 0x60000000002#43] []) = .next t ∧ t.sha.busy = true) ∧
      ((running 16).Inv ∧ ∃ t, step (running 16) = .next t ∧ t.sha.t = some 17#7) ∧
      ((running 64).Inv ∧ ∃ t, step (running 64) = .next t ∧ t.sha.busy = false) :=
  ⟨⟨by decide +kernel, next_with (by decide +kernel)⟩, ⟨by decide +kernel, next_with (by decide +kernel)⟩,
    ⟨by decide +kernel, next_with (by decide +kernel)⟩, ⟨by decide +kernel, next_with (by decide +kernel)⟩⟩

theorem witness_LiveStateHasAStep : resetState.Inv ∧ resetState.sha.fault = none ∧ (running 64).Inv ∧
    (running 64).sha.fault = none := by decide +kernel

theorem witness_EngineStepsCannotFault :
    ((running 63).Inv ∧ (running 63).sha.fault = none ∧ (running 63).sha.busy = true) ∧
      (withHost resetState [.tx 0#43] []).Inv ∧
        ∃ t, step (withHost resetState [.tx 0#43] []) = .next t ∧ t.sha.fault ≠ none :=
  ⟨by decide +kernel, by decide +kernel, next_with (by decide +kernel)⟩

theorem witness_EndedRunHasNoStep : endedState.sha.fault = some ⟨.busyAccess, 0x600#11, 0#32⟩ := by decide +kernel

theorem witness_NopChangesNothing : (resetState.sha.fault = none ∧ resetState.sha.busy = false) ∧
    (running 0).sha.fault = none ∧ (running 0).sha.busy = true := by decide +kernel

theorem witness_InitLoadsH0 : (doneState.sha.fault = none ∧ doneState.sha.busy = false) ∧
    (running 64).sha.fault = none ∧ (running 64).sha.busy = true := by decide +kernel

/-- Each of the four cases; the unwritten word is the last one only. -/
theorem witness_CompressAcceptsABlock : ((running 0).sha.fault = none ∧ (running 0).sha.busy = true) ∧
    (resetState.sha.fault = none ∧ resetState.sha.busy = false ∧ resetState.sha.hvalid = false) ∧
    (∃ c : ShaState, c = { fullState.sha with blk := fullState.sha.blk.set 15 none } ∧ c.fault = none ∧
      c.busy = false ∧ c.hvalid = true ∧ ∃ j : Fin 16, c.blk[j] = none) ∧
    fullState.sha.fault = none ∧ fullState.sha.busy = false ∧ fullState.sha.hvalid = true ∧
      ∀ j : Fin 16, fullState.sha.blk[j] = some (Vector.replicate 16 0#32)[j] :=
  ⟨by decide +kernel, by decide +kernel, ⟨_, rfl, by decide +kernel⟩, by decide +kernel⟩

theorem witness_RdStatusReturnsTheFlags : resetState.sha.fault = none ∧ (running 64).sha.fault = none := by
  decide +kernel

theorem witness_WrBlkWritesOneWord : (fullState.sha.fault = none ∧ fullState.sha.busy = false) ∧
    (running 0).sha.fault = none ∧ (running 0).sha.busy = true := by decide +kernel

theorem witness_RdBlkReturnsTheWord :
    (fullState.sha.fault = none ∧ fullState.sha.busy = false ∧ fullState.sha.blk[(15 : Fin 16)] = some 0#32) ∧
      (resetState.sha.fault = none ∧ resetState.sha.busy = false ∧ resetState.sha.blk[(0 : Fin 16)] = none) ∧
      (running 0).sha.fault = none ∧ (running 0).sha.busy = true := by decide +kernel

theorem witness_RdHashReturnsTheWord :
    (initState.sha.fault = none ∧ initState.sha.busy = false ∧ initState.sha.hvalid = true ∧
        initState.sha.hash[(7 : Fin 8)] = some 0x5BE0CD19#32) ∧
      (resetState.sha.fault = none ∧ resetState.sha.busy = false ∧ resetState.sha.hvalid = false) ∧
      (running 0).sha.fault = none ∧ (running 0).sha.busy = true := by decide +kernel

/-- An operation, and a word that decodes to none. -/
theorem witness_BusyAdmitsOnlyStatusReads : (running 0).sha.fault = none ∧ (running 0).sha.busy = true ∧
    (∀ x, decode 0x60000000000#43 ≠ .ok (.rdStatus x)) ∧ ∀ x, decode 0x20800000000#43 ≠ .ok (.rdStatus x) := by
  refine ⟨by decide +kernel, by decide +kernel, fun x => ?_, fun x => ?_⟩
  · rw [show decode 0x60000000000#43 = .ok .nop by decide]
    simp
  · rw [show decode 0x20800000000#43 = .error .unmapped by decide]
    simp

/-- A fault while BUSY = 1, and one in an idle core. -/
theorem witness_FaultingAccessSetsOnlyFault :
    (∃ t, hostAccess 0x28000000000#43 (running 0) = .next t ∧ t.sha.fault ≠ none) ∧
      ∃ t, hostAccess 0#43 resetState = .next t ∧ t.sha.fault ≠ none :=
  ⟨next_with (by decide +kernel), next_with (by decide +kernel)⟩

/-- One access for each of the five forms, and one that faults. -/
theorem witness_HostAccessFrame :
    (∃ t, hostAccess 0x60000000000#43 resetState = .next t ∧ t.sha.fault = none) ∧
      (∃ t, hostAccess 0x60000000001#43 resetState = .next t ∧ t.sha.fault = none) ∧
      (∃ t, hostAccess 0x60000000002#43 fullState = .next t ∧ t.sha.fault = none) ∧
      (∃ t, hostAccess 0x67C00000018#43 fullState = .next t ∧ t.sha.fault = none) ∧
      (∃ t, hostAccess 0x29C00000000#43 initState = .next t ∧ t.sha.fault = none) ∧
      ∃ t, hostAccess 0x28000000000#43 (running 0) = .next t ∧ t.sha.fault ≠ none :=
  ⟨next_with (by decide +kernel), next_with (by decide +kernel), next_with (by decide +kernel),
    next_with (by decide +kernel), next_with (by decide +kernel), next_with (by decide +kernel)⟩

/-- A write, a read, an access that faults, and an engine step. -/
theorem witness_ExecKeepsTheHostsSide : (∃ t, exec .init resetState = .next t ∧ t.rdata = none) ∧
    (∃ t, exec (.rdHash 7 0) initState = .next t ∧ t.received = [0x5BE0CD19#32]) ∧
    (∃ t, hostAccess 0x60400000000#43 resetState = .next t ∧ t.received = []) ∧
    ∃ t, engineStep (running 16) = .next t ∧ t.sha.t = some 17#7 :=
  ⟨next_with (by decide +kernel), next_with (by decide +kernel), next_with (by decide +kernel),
    next_with (by decide +kernel)⟩

theorem witness_BlkReadsBackTheLastWrite : resetState.sha.fault = none ∧ resetState.sha.busy = false ∧
    fullState.sha.fault = none ∧ fullState.sha.busy = false := by decide +kernel

/-- INIT's step, and the final step. -/
theorem witness_OnlyInitAndFinalStepWriteHash :
    (∃ t, step (withHost doneState [.tx 0x60000000001#43] []) = .next t ∧ t.sha.hash ≠ doneState.sha.hash) ∧
      ∃ t, step (running 64) = .next t ∧ t.sha.hash ≠ (running 64).sha.hash :=
  ⟨next_with (by decide +kernel), next_with (by decide +kernel)⟩

theorem witness_OnlyInitSetsHvalid :
    ∃ t, step (withHost resetState [.tx 0x60000000001#43] []) = .next t ∧ t.sha.hvalid ≠ resetState.sha.hvalid :=
  next_with (by decide +kernel)

/-- The accept step, and the final step. -/
theorem witness_OnlyAcceptAndFinalStepWriteBusy :
    (∃ t, step (withHost fullState [.tx 0x60000000002#43] []) = .next t ∧ t.sha.busy ≠ fullState.sha.busy) ∧
      ∃ t, step (running 64) = .next t ∧ t.sha.busy ≠ (running 64).sha.busy :=
  ⟨next_with (by decide +kernel), next_with (by decide +kernel)⟩

/-- The counter kept, set to 0, advanced from 63, and set to ⊥. -/
theorem witness_CounterAdvancesByOne :
    (resetState.Inv ∧ ∃ t, step resetState = .next t ∧ t.sha.t = resetState.sha.t) ∧
      ((withHost fullState [.tx 0x60000000002#43] []).Inv ∧
        ∃ t, step (withHost fullState [.tx 0x60000000002#43] []) = .next t ∧ t.sha.t = some 0#7) ∧
      ((running 63).Inv ∧ ∃ t, step (running 63) = .next t ∧ t.sha.t = some 64#7) ∧
      ((running 64).Inv ∧ ∃ t, step (running 64) = .next t ∧ t.sha.t = none) :=
  ⟨⟨by decide +kernel, next_with (by decide +kernel)⟩, ⟨by decide +kernel, next_with (by decide +kernel)⟩,
    ⟨by decide +kernel, next_with (by decide +kernel)⟩, ⟨by decide +kernel, next_with (by decide +kernel)⟩⟩

/-- An engine step, a STATUS read and a faulting access in mid-compression. -/
theorem witness_IsolationDuringACompression : (running 16).Inv ∧ (running 16).sha.busy = true ∧
    (∃ t, step (running 16) = .next t ∧ t.sha.busy = true) ∧
    (∃ t, step (withHost (running 16) [.poll] [.host]) = .next t ∧ t.sha.busy = true) ∧
    ∃ t, step (withHost (running 16) [.tx 0x64000000000#43] [.host]) = .next t ∧ t.sha.busy = true :=
  ⟨by decide +kernel, by decide +kernel, next_with (by decide +kernel), next_with (by decide +kernel),
    next_with (by decide +kernel)⟩

/-- A step that uses a loaded word, and the last that expands one. -/
theorem witness_RoundStepEffect :
    ((15#7).toNat < 64 ∧ (running 15).sha.fault = none ∧ (running 15).sha.busy = true ∧
        (running 15).sha.t = some 15#7 ∧ (∀ i : Fin 8, (running 15).sha.v[i] = some H0[i]) ∧ (15#7).toNat < 16 ∧
        (running 15).sha.w[(15#7).toNat] = some 0#32) ∧
      (63#7).toNat < 64 ∧ (running 63).sha.fault = none ∧ (running 63).sha.busy = true ∧
        (running 63).sha.t = some 63#7 ∧ (∀ i : Fin 8, (running 63).sha.v[i] = some H0[i]) ∧ 16 ≤ (63#7).toNat ∧
        (running 63).sha.w[(63#7).toNat - 2] = some 0#32 ∧ (running 63).sha.w[(63#7).toNat - 7] = some 0#32 ∧
        (running 63).sha.w[(63#7).toNat - 15] = some 0#32 ∧ (running 63).sha.w[(63#7).toNat - 16] = some 0#32 := by
  decide +kernel

theorem witness_FinalStepEffect : (running 64).sha.fault = none ∧ (running 64).sha.busy = true ∧
    (running 64).sha.t = some 64#7 ∧ (∀ i : Fin 8, (running 64).sha.hash[i] = some H0[i]) ∧
    (∀ i : Fin 8, (running 64).sha.v[i] = some H0[i]) ∧ (running 64).Inv := by decide +kernel

/-- k = 0 and k = 64. -/
theorem witness_EngineAfterKRounds : fullState.Inv ∧ fullState.sha.fault = none ∧ fullState.sha.busy = false ∧
    fullState.sha.hvalid = true ∧ (∀ i : Fin 8, fullState.sha.hash[i] = some H0[i]) ∧
    (∀ j : Fin 16, fullState.sha.blk[j] = some (Vector.replicate 16 0#32)[j]) ∧ 0 ≤ 64 ∧ 64 ≤ 64 := by
  decide +kernel

theorem witness_CompressionIsCompress : fullState.sha.fault = none ∧ fullState.sha.busy = false ∧
    fullState.sha.hvalid = true ∧ (∀ i : Fin 8, fullState.sha.hash[i] = some H0[i]) ∧
    ∀ j : Fin 16, fullState.sha.blk[j] = some (Vector.replicate 16 0#32)[j] := by decide +kernel

theorem witness_SubmittedBlocksChain : resetState.sha.fault = none ∧ resetState.sha.busy = false := by decide +kernel

/-- The clauses' boundary: 15 is loaded, 16 and 63 are expanded. -/
theorem witness_ScheduleRecurrence : (15 : Fin 64).val < 16 ∧ 16 ≤ (16 : Fin 64).val ∧ 16 ≤ (63 : Fin 64).val := by decide

/-- With BUSY = 0, and with BUSY = 1 by the host's turn. -/
theorem witness_StepRunsTheDecodedOperation : decode 0x20400000000#43 = .ok (.rdStatus 0) ∧
    (∃ s, s = withHost initState [.tx 0x20400000000#43] [] ∧ s.sha.fault = none ∧ s.sha.busy = false ∧
      s.pending = .tx 0x20400000000#43 :: []) ∧
    ∃ s, s = withHost (running 0) [.tx 0x20400000000#43] [.host] ∧ s.sha.fault = none ∧ s.sha.busy = true ∧
      s.pending = .tx 0x20400000000#43 :: [] ∧ s.turns = .host :: [] :=
  ⟨by decide, ⟨_, rfl, by decide +kernel⟩, ⟨_, rfl, by decide +kernel⟩⟩

/-- Codes 3 and 5, below and above the code of BUSY. -/
theorem witness_StepTakesADecodeFault : decode 0x20800000000#43 = .error .unmapped ∧
    decode 0x60400000000#43 = .error .writeToReadOnly ∧
    (∃ s, s = withHost initState [.tx 0x20800000000#43] [] ∧ s.sha.fault = none ∧ s.sha.busy = false ∧
      s.pending = .tx 0x20800000000#43 :: []) ∧
    ∃ s, s = withHost (running 0) [.tx 0x60400000000#43] [.host] ∧ s.sha.fault = none ∧ s.sha.busy = true ∧
      s.pending = .tx 0x60400000000#43 :: [] ∧ s.turns = .host :: [] :=
  ⟨by decide, by decide, ⟨_, rfl, by decide +kernel⟩, ⟨_, rfl, by decide +kernel⟩⟩

theorem witness_StepMovesTheEngine :
    ((running 0).sha.fault = none ∧ (running 0).sha.busy = true ∧ (running 0).pending = [] ∧ (running 0).turns = []) ∧
      (∃ s, s = withHost (running 0) [.poll] [.engine] ∧ s.sha.fault = none ∧ s.sha.busy = true ∧ s.pending ≠ [] ∧
        s.turns = .engine :: []) ∧
      resetState.sha.fault = none ∧ resetState.sha.busy = false ∧ resetState.pending = [] :=
  ⟨by decide +kernel, ⟨_, rfl, by decide +kernel⟩, by decide +kernel⟩

theorem witness_PollRepeatsWhileBusy :
    (∃ s, s = withHost initState [.poll] [] ∧ s.sha.fault = none ∧ s.pending = .poll :: [] ∧ s.sha.busy = false) ∧
      ∃ s, s = withHost (running 0) [.poll] [.host] ∧ s.sha.fault = none ∧ s.pending = .poll :: [] ∧
        s.sha.busy = true ∧ s.turns = .host :: [] :=
  ⟨⟨_, rfl, by decide +kernel⟩, ⟨_, rfl, by decide +kernel⟩⟩

theorem witness_FetchWordRunsTheOperation : resetState.sha.fault = none ∧ (running 0).sha.fault = none ∧
    decodeTableWord 43 0x60000000001 = some .init := by decide +kernel

theorem witness_StatusReadCommutesWithTheEngine : (running 16).Inv ∧ (running 16).sha.fault = none ∧
    (running 16).sha.busy = true := by decide +kernel

/-- A host that polls before the first round step, and one that polls before the final step. -/
theorem witness_PollFindsTheFinishedCompression :
    (∃ s, s = withHost (running 0) [.poll] [.host] ∧ s.Inv ∧ s.sha.fault = none ∧ s.sha.busy = true ∧
      s.sha.t = some 0#7 ∧ s.pending = .poll :: []) ∧
    ∃ s, s = withHost (running 64) [.poll] [.host] ∧ s.Inv ∧ s.sha.fault = none ∧ s.sha.busy = true ∧
      s.sha.t = some 64#7 ∧ s.pending = .poll :: [] :=
  ⟨⟨_, rfl, by decide +kernel, rfl, rfl, rfl, rfl⟩, ⟨_, rfl, by decide +kernel, rfl, rfl, rfl, rfl⟩⟩

theorem witness_CompressionEndsOrFaults : (withHost (running 0) [.tx 0x28000000000#43] [.engine, .host]).Inv ∧
    (withHost (running 0) [.tx 0x28000000000#43] [.engine, .host]).sha.fault = none ∧
    (withHost (running 0) [.tx 0x28000000000#43] [.engine, .host]).sha.busy = true := by decide +kernel

theorem witness_DigestProcedureChains : ∃ s, s = withHost resetState (digestLines [abc] ++ []) [.host] ∧ s.Inv ∧
    s.sha.fault = none ∧ s.sha.busy = false ∧ s.pending = digestLines [abc] ++ [] :=
  ⟨_, rfl, by decide +kernel⟩

theorem witness_DigestRunsOnTheCore : (doneState.Inv ∧ doneState.sha.fault = none ∧ doneState.sha.busy = false) ∧
    ∃ s, s = withHost resetState [] [.host] ∧ s.Inv ∧ s.sha.fault = none ∧ s.sha.busy = false :=
  ⟨by decide +kernel, ⟨_, rfl, by decide +kernel⟩⟩

theorem witness_SumInAnyOrder : [1#32, 2#32, 3#32].Perm [3#32, 1#32, 2#32] := by decide

theorem witness_RotrRotatesBits : (1 ≤ 1 ∧ 1 ≤ 31 ∧ 0 < 32) ∧ 1 ≤ 31 ∧ 31 ≤ 31 ∧ 31 < 32 := by decide

/-- The lowest bit the shift by 3 clears. -/
theorem witness_ShrIsFloor : 32 - 3 ≤ 29 ∧ ¬ 32 - 3 ≤ 28 := by decide

theorem witness_ChChoosesAndMajVotes : 0 < 32 ∧ 31 < 32 := by decide

theorem witness_SigmaFunctionsBitwise : 0 < 32 ∧ 31 < 32 := by decide

/-- A text with a digest; one that is refused for a code unit, one for its length; one that is not. -/
theorem witness_DigestShape :
    digest [] = some "e3b0c44298fc1c149afbf4c8996fb92427ae41e4649b934ca495991b7852b855".toList ∧
      (∃ c ∈ [0x61, 0x100], 0xFF < c) ∧ 2 ^ 29 - 1 < (List.replicate (2 ^ 29) 0).length ∧
      ¬ 2 ^ 29 - 1 < (List.replicate (2 ^ 29 - 1) 0).length :=
  ⟨test_digest_empty, by decide, by rw [List.length_replicate]; decide, by rw [List.length_replicate]; decide⟩

/-- The first of two instances takes INIT's step. -/
theorem witness_InstancesShareNothing :
    (Platform.step 0 [withHost resetState [.tx 0x60000000001#43] [], resetState]).isSome = true := by decide +kernel

end Sys2Proof.Tests
end

section
/-! SUPPORT. The bits of a word that the tests of Decode look at, as bounds on its value, and the fields of a
descriptor (30_encoding.md R71, R72). -/

namespace Sys2Proof

/-- The low k bits are the value modulo 2^k. -/
theorem extractLsb'_low_eq_iff {n : Nat} (x : BitVec n) (k : Nat) (y : BitVec k) :
    x.extractLsb' 0 k = y ↔ x.toNat % 2 ^ k = y.toNat := by
  simp [BitVec.toNat_eq]

/-- RSVD = WDATA[31:4] is 0 exactly below 16. -/
theorem reserved_eq_zero_iff (x : Word) : x.extractLsb' 4 28 = 0#28 ↔ x.toNat < 16 := by
  simp only [BitVec.toNat_eq, BitVec.extractLsb'_toNat, BitVec.toNat_ofNat, Nat.shiftRight_eq_div_pow]
  omega

theorem txDir_eq_txDesc (tx : Tx) : txDir tx = (txDesc tx).getLsbD 10 := by
  simp [txDir, txDesc]

theorem txSize_eq_txDesc (tx : Tx) : txSize tx = (txDesc tx).extractLsb' 8 2 := by
  ext k hk
  simp [txSize, txDesc, show 8 + k < 11 by omega, ← Nat.add_assoc]

theorem txAddr_eq_txDesc (tx : Tx) : txAddr tx = (txDesc tx).extractLsb' 0 8 := by
  ext k hk
  simp [txAddr, txDesc, show k < 11 by omega]

/-- A descriptor determines DIR, SIZE and ADDR (R71). -/
theorem fields_of_txDesc {tx : Tx} {dir : Bool} {size : BitVec 2} {addr : Offset}
    (h : txDesc tx = BitVec.ofBool dir ++ size ++ addr) : txDir tx = dir ∧ txSize tx = size ∧ txAddr tx = addr := by
  have hmk : txDesc tx = txDesc (mkTx dir size addr 0#32) := h.trans (txDesc_mkTx ..).symm
  refine ⟨?_, ?_, ?_⟩
  · rw [txDir_eq_txDesc, hmk, ← txDir_eq_txDesc, txDir_mkTx]
  · rw [txSize_eq_txDesc, hmk, ← txSize_eq_txDesc, txSize_mkTx]
  · rw [txAddr_eq_txDesc, hmk, ← txAddr_eq_txDesc, txAddr_mkTx]

end Sys2Proof
end

section
/-! SUPPORT. Decoding in each case: the register map, the commands of CTRL, the tests of 30_encoding.md R74, and that
a word is the encoding of the operation it decodes to. -/

namespace Sys2Proof

/-! ### The register map (20_memory.md R51) -/

/-- A word-aligned offset is the offset of the register it selects. -/
theorem offset_of_registerAt {addr : Offset} {r : Reg} (ha : addr.extractLsb' 0 2 = 0#2)
    (hr : registerAt addr = some r) : r.offset = addr := by
  have all_offsets : ∀ addr : Offset, addr.extractLsb' 0 2 = 0#2 → ∀ r ∈ registerAt addr, r.offset = addr := by decide
  exact all_offsets addr ha r hr

theorem registerAt_reserved {addr : Offset}
    (h : (0x08 ≤ addr.toNat ∧ addr.toNat ≤ 0x3C) ∨ (0xA0 ≤ addr.toNat ∧ addr.toNat ≤ 0xFC)) :
    registerAt addr = none := by
  unfold registerAt
  rw [if_neg (by bv_omega), if_neg (by bv_omega), if_neg (by bv_omega), if_neg (by bv_omega)]

theorem registerAt_hash_offset (i : Fin 8) : registerAt (Reg.hash i).offset = some (.hash i) := by
  revert i
  decide

theorem hash_offset_aligned (i : Fin 8) : (Reg.hash i).offset.extractLsb' 0 2 = 0#2 := by
  revert i
  decide

/-- The descriptor of a write of HASH[i]. -/
theorem hash_write_desc (i : Fin 8) :
    BitVec.ofNat 11 (0x680 + 4 * i.val) = BitVec.ofBool true ++ size4 ++ (Reg.hash i).offset := by
  revert i
  decide

/-! ### The commands (30_encoding.md R72, 43_commands.md R150) -/

theorem decodeCommand_reserved {x : Word} (h : 16 ≤ x.toNat) : decodeCommand x = .error .reservedBits := by
  unfold decodeCommand
  rw [if_pos (by rw [Ne, reserved_eq_zero_iff]; omega)]

theorem decodeCommand_illegal {x : Word} (h3 : 3 ≤ x.toNat) (h15 : x.toNat ≤ 15) :
    decodeCommand x = .error .illegalCommand := by
  have hmod : x.toNat % 2 ^ 4 = x.toNat := Nat.mod_eq_of_lt (by omega)
  simp only [decodeCommand, ne_eq, reserved_eq_zero_iff, extractLsb'_low_eq_iff, hmod, BitVec.toNat_ofNat]
  rw [if_neg (by omega), if_neg (by omega), if_neg (by omega), if_neg (by omega)]

/-- Every word written to CTRL is a command, has a reserved bit set, or carries a reserved command. -/
theorem command_cases (x : Word) : x = 0#32 ∨ x = 1#32 ∨ x = 2#32 ∨ (3 ≤ x.toNat ∧ x.toNat ≤ 15) ∨ 16 ≤ x.toNat := by
  bv_omega

/-! ### Decode's tests (30_encoding.md R74) -/

theorem decode_badSize {tx : Tx} (hs : txSize tx ≠ size4) : decode tx = .error .badSize := by
  simp [decode, hs]

section
variable {tx : Tx} (hs : txSize tx = size4)
include hs

theorem decode_misaligned (ha : (txAddr tx).extractLsb' 0 2 ≠ 0#2) : decode tx = .error .misaligned := by
  simp [decode, hs, ha]

variable (ha : (txAddr tx).extractLsb' 0 2 = 0#2)
include ha

theorem decode_unmapped (hr : registerAt (txAddr tx) = none) : decode tx = .error .unmapped := by
  simp [decode, hs, ha, hr]

theorem decode_ctrl (hr : registerAt (txAddr tx) = some .ctrl) :
    decode tx = if txDir tx then decodeCommand (txWdata tx) else .error .readOfWriteOnly := by
  simp [decode, hs, ha, hr]

theorem decode_status (hr : registerAt (txAddr tx) = some .status) :
    decode tx = if txDir tx then .error .writeToReadOnly else .ok (.rdStatus (txWdata tx)) := by
  simp [decode, hs, ha, hr]

theorem decode_blk {j : Fin 16} (hr : registerAt (txAddr tx) = some (.blk j)) :
    decode tx = if txDir tx then .ok (.wrBlk j (txWdata tx)) else .ok (.rdBlk j (txWdata tx)) := by
  simp [decode, hs, ha, hr]

theorem decode_hash {i : Fin 8} (hr : registerAt (txAddr tx) = some (.hash i)) :
    decode tx = if txDir tx then .error .writeToReadOnly else .ok (.rdHash i (txWdata tx)) := by
  simp [decode, hs, ha, hr]

end

/-! ### Accesses to CTRL, STATUS and HASH by their descriptors (30_encoding.md R76) -/

theorem decode_write_status {tx : Tx} (h : txDesc tx = 0x604#11) : decode tx = .error .writeToReadOnly := by
  obtain ⟨hd, hs, ha⟩ := fields_of_txDesc (dir := true) (size := size4) (addr := Reg.status.offset) h
  rw [decode_status hs (by rw [ha]; rfl) (by rw [ha]; rfl), if_pos hd]

theorem decode_write_hash {tx : Tx} {i : Fin 8} (h : txDesc tx = BitVec.ofNat 11 (0x680 + 4 * i.val)) :
    decode tx = .error .writeToReadOnly := by
  obtain ⟨hd, hs, ha⟩ := fields_of_txDesc (h.trans (hash_write_desc i))
  rw [decode_hash hs (ha ▸ hash_offset_aligned i) (ha ▸ registerAt_hash_offset i), if_pos hd]

theorem decode_read_ctrl {tx : Tx} (h : txDesc tx = 0x200#11) : decode tx = .error .readOfWriteOnly := by
  obtain ⟨hd, hs, ha⟩ := fields_of_txDesc (dir := false) (size := size4) (addr := Reg.ctrl.offset) h
  rw [decode_ctrl hs (by rw [ha]; rfl) (by rw [ha]; rfl), hd]
  rfl

theorem decode_write_ctrl {tx : Tx} (h : txDesc tx = 0x600#11) : decode tx = decodeCommand (txWdata tx) := by
  obtain ⟨hd, hs, ha⟩ := fields_of_txDesc (dir := true) (size := size4) (addr := Reg.ctrl.offset) h
  rw [decode_ctrl hs (by rw [ha]; rfl) (by rw [ha]; rfl), if_pos hd]

/-! ### The decoder and the opcode table (30_encoding.md R75) -/

/-- A word a command was read from is the WDATA of that command's encoding. -/
theorem encode_of_decodeCommand {x : Word} {i : Instr} (h : decodeCommand x = .ok i) :
    encode i = mkTx true size4 Reg.ctrl.offset x := by
  obtain rfl | rfl | rfl | ⟨h3, h15⟩ | h16 := command_cases x
  · cases h
    rfl
  · cases h
    rfl
  · cases h
    rfl
  · simp [decodeCommand_illegal h3 h15] at h
  · simp [decodeCommand_reserved h16] at h

/-- The word an operation was decoded from is its encoding: no two words mean the same operation. -/
theorem encode_of_decode {tx : Tx} {i : Instr} (h : decode tx = .ok i) : encode i = tx := by
  by_cases hs : txSize tx = size4
  case neg => simp [decode_badSize hs] at h
  by_cases ha : (txAddr tx).extractLsb' 0 2 = 0#2
  case neg => simp [decode_misaligned hs ha] at h
  cases hr : registerAt (txAddr tx) with
  | none => simp [decode_unmapped hs ha hr] at h
  | some r =>
    have hoff := offset_of_registerAt ha hr
    rw [← mkTx_fields tx, hs, ← hoff]
    cases r with
    | ctrl =>
      rw [decode_ctrl hs ha hr] at h
      split at h
      next hd => rw [hd, encode_of_decodeCommand h]
      next => cases h
    | status =>
      rw [decode_status hs ha hr] at h
      split at h
      next => cases h
      next hd =>
        cases h
        simp [encode, hd]
    | blk j =>
      rw [decode_blk hs ha hr] at h
      split at h
      next hd =>
        cases h
        simp [encode, hd]
      next hd =>
        cases h
        simp [encode, hd]
    | hash k =>
      rw [decode_hash hs ha hr] at h
      split at h
      next => cases h
      next hd =>
        cases h
        simp [encode, hd]

/-- Every operation's word is covered by the row of its mnemonic and by no other (R75). -/
theorem covers_encode (i : Instr) : ∀ row ∈ opcodeTable, row.covers (encode i) = (row.mnemonic == i.mnemonic) := by
  cases i with
  | nop => exact Laws.EncodingInRow.nop
  | init => exact Laws.EncodingInRow.init
  | compress => exact Laws.EncodingInRow.compress
  | rdStatus x => exact Laws.EncodingInRow.rdStatus x
  | wrBlk j x => exact Laws.EncodingInRow.wrBlk j x
  | rdBlk j x => exact Laws.EncodingInRow.rdBlk j x
  | rdHash k x => exact Laws.EncodingInRow.rdHash k x

theorem exists_row_of_mnemonic (i : Instr) : ∃ row ∈ opcodeTable, row.mnemonic = i.mnemonic := by
  cases i <;> simp [opcodeTable, Instr.mnemonic]

/-- A word that no row of the opcode table covers decodes to no operation. -/
theorem decode_of_uncovered {tx : Tx} (h : ∀ row ∈ opcodeTable, row.covers tx = false) :
    ∃ code, decode tx = .error code := by
  cases hd : decode tx with
  | error code => exact ⟨code, rfl⟩
  | ok i =>
    obtain ⟨row, hmem, hname⟩ := exists_row_of_mnemonic i
    have hcov := covers_encode i row hmem
    rw [encode_of_decode hd, h row hmem, hname] at hcov
    simp at hcov

end Sys2Proof
end

section
/-! SUPPORT. Test 4 of 30_encoding.md R74 (BUSY) applied to what Decode answers without it, and a host access in each
case. -/

namespace Sys2Proof.Machine

/-- The one operation allowed while BUSY = 1 (43_commands.md R154). -/
@[simp]
def allowedWhileBusy : Instr → Bool
  | .rdStatus _ => true
  | _ => false

/-- A decode fault's code with BUSY's test in its place: 4 instead of a code above 4 (60_exceptions.md R203). -/
def codeWithBusy (busy : Bool) (code : FaultCode) : FaultCode :=
  if busy = true ∧ 4 < code.number then .busyAccess else code

/-- The answer of `decode` with BUSY's test in its place. -/
def testBusy (busy : Bool) : Except FaultCode Instr → Except FaultCode Instr
  | .error code => .error (codeWithBusy busy code)
  | .ok i => if busy = true ∧ allowedWhileBusy i = false then .error .busyAccess else .ok i

theorem codeWithBusy_of_le {busy : Bool} {code : FaultCode} (h : code.number ≤ 4) :
    codeWithBusy busy code = code := if_neg fun hb => by omega

theorem codeWithBusy_of_lt {busy : Bool} {code : FaultCode} (h : 4 < code.number) :
    codeWithBusy busy code = if busy then .busyAccess else code := by
  simp [codeWithBusy, h]

/-- With BUSY = 1 no write to CTRL is performed, whatever its word. -/
theorem testBusy_decodeCommand_busy (x : Word) : testBusy true (decodeCommand x) = .error .busyAccess := by
  obtain rfl | rfl | rfl | ⟨h3, h15⟩ | h16 := command_cases x
  · rfl
  · rfl
  · rfl
  · rw [decodeCommand_illegal h3 h15]
    rfl
  · rw [decodeCommand_reserved h16]
    rfl

theorem testBusy_idle (r : Except FaultCode Instr) : testBusy false r = r := by
  cases r <;> simp [testBusy, codeWithBusy]

/-- With BUSY = 0 a write to CTRL is dispatched as R150 says. -/
theorem decodeWithBusy_ctrl_write {tx : Tx} (hs : txSize tx = size4) (ha : (txAddr tx).extractLsb' 0 2 = 0#2)
    (hr : registerAt (txAddr tx) = some .ctrl) (hd : txDir tx = true) :
    decodeWithBusy false tx = decodeCommand (txWdata tx) := by
  simp only [decodeWithBusy, hs, size4, ha, hr, hd]
  generalize txWdata tx = x
  obtain rfl | rfl | rfl | ⟨h3, h15⟩ | h16 := command_cases x
  · rfl
  · rfl
  · rfl
  · have hmod : x.toNat % 16 = x.toNat := Nat.mod_eq_of_lt (by omega)
    have hrsvd : x.extractLsb' 4 28 = 0#28 := (reserved_eq_zero_iff x).mpr (by omega)
    rw [decodeCommand_illegal h3 h15]
    simp only [hmod, hrsvd, ne_eq, not_true_eq_false, false_and, reduceCtorEq, Bool.false_eq_true, reduceIte]
    split
    · omega
    · omega
    · omega
    · rfl
  · have hrsvd : x.extractLsb' 4 28 ≠ 0#28 := mt (reserved_eq_zero_iff x).mp (by omega)
    simp [decodeCommand_reserved h16, hrsvd]

/-- R74 written out test by test is `decode` with BUSY's test put in its place. -/
theorem decodeWithBusy_eq (busy : Bool) (tx : Tx) : decodeWithBusy busy tx = testBusy busy (decode tx) := by
  by_cases hs : txSize tx = size4
  case neg =>
    rw [decode_badSize hs, testBusy, codeWithBusy_of_le (by decide)]
    exact if_pos hs
  by_cases ha : (txAddr tx).extractLsb' 0 2 = 0#2
  case neg =>
    rw [decode_misaligned hs ha, testBusy, codeWithBusy_of_le (by decide)]
    simp [decodeWithBusy, hs, size4, ha]
  cases hr : registerAt (txAddr tx) with
  | none =>
    rw [decode_unmapped hs ha hr, testBusy, codeWithBusy_of_le (by decide)]
    simp [decodeWithBusy, hs, size4, ha, hr]
  | some r =>
    cases r with
    | ctrl =>
      rw [decode_ctrl hs ha hr]
      cases hd : txDir tx with
      | false => cases busy <;> simp [decodeWithBusy, hs, size4, ha, hr, hd, testBusy, codeWithBusy, FaultCode.number]
      | true =>
        cases busy with
        | false => simp [decodeWithBusy_ctrl_write hs ha hr hd, testBusy_idle]
        | true => simp [decodeWithBusy, hs, size4, ha, hr, testBusy_decodeCommand_busy]
    | status =>
      rw [decode_status hs ha hr]
      cases hd : txDir tx <;> cases busy <;>
        simp [decodeWithBusy, hs, size4, ha, hr, hd, testBusy, codeWithBusy, FaultCode.number]
    | blk j =>
      rw [decode_blk hs ha hr]
      cases hd : txDir tx <;> cases busy <;> simp [decodeWithBusy, hs, size4, ha, hr, hd, testBusy]
    | hash k =>
      rw [decode_hash hs ha hr]
      cases hd : txDir tx <;> cases busy <;>
        simp [decodeWithBusy, hs, size4, ha, hr, hd, testBusy, codeWithBusy, FaultCode.number]

/-- Taking a decode fault. -/
theorem hostAccess_of_error {s : State} {tx : Tx} {code : FaultCode} (hf : s.sha.fault = none)
    (hd : decode tx = .error code) :
    TakesFault (hostAccess tx s) s ⟨codeWithBusy s.sha.busy code, txDesc tx, txWdata tx⟩ := by
  simp only [hostAccess, hd, rejectWord, unlessEnded_live hf]
  exact ⟨_, rfl, rfl, rfl⟩

section
variable {s : State} {tx : Tx} {code : FaultCode} (hf : s.sha.fault = none) (hd : decode tx = .error code)
include hf hd

/-- A decode fault whose test comes before BUSY's keeps its code. -/
theorem takesFault_of_le (hc : code.number ≤ 4) :
    TakesFault (hostAccess tx s) s ⟨code, txDesc tx, txWdata tx⟩ :=
  codeWithBusy_of_le hc ▸ hostAccess_of_error hf hd

/-- A decode fault whose test comes after BUSY's gives way to code 4 while BUSY = 1. -/
theorem takesFault_of_lt (hc : 4 < code.number) :
    TakesFault (hostAccess tx s) s ⟨if s.sha.busy then .busyAccess else code, txDesc tx, txWdata tx⟩ :=
  codeWithBusy_of_lt hc ▸ hostAccess_of_error hf hd

end

theorem hostAccess_of_ok {s : State} {tx : Tx} {i : Instr} (hd : decode tx = .ok i) : hostAccess tx s = exec i s := by
  simp only [hostAccess, hd]

/-- While BUSY = 1 every operation but the read of STATUS faults with code 4. -/
theorem exec_busy {s : State} {i : Instr} (hf : s.sha.fault = none) (hb : s.sha.busy = true)
    (hi : allowedWhileBusy i = false) : exec i s = raiseBy i .busyAccess s := by
  cases i with
  | rdStatus x => cases hi
  | nop | init | compress | wrBlk | rdBlk | rdHash => exact unlessBusy_busy hf hb

/-- An access takes the fault that `decode` with BUSY's test in its place raises, a refused operation's included. -/
theorem hostAccess_of_testBusy_error {s : State} {tx : Tx} {code : FaultCode} (hf : s.sha.fault = none)
    (h : testBusy s.sha.busy (decode tx) = .error code) :
    TakesFault (hostAccess tx s) s ⟨code, txDesc tx, txWdata tx⟩ := by
  cases hd : decode tx with
  | error code' =>
    rw [hd] at h
    cases h
    exact hostAccess_of_error hf hd
  | ok i =>
    rw [hd, testBusy] at h
    split at h
    next hbusy =>
      obtain ⟨hb, hi⟩ := hbusy
      cases h
      rw [hostAccess_of_ok hd, exec_busy hf hb hi, ← encode_of_decode hd]
      exact ⟨_, rfl, rfl, rfl⟩
    next => cases h

theorem hostAccess_of_testBusy_ok {s : State} {tx : Tx} {i : Instr} (h : testBusy s.sha.busy (decode tx) = .ok i) :
    hostAccess tx s = exec i s := by
  cases hd : decode tx with
  | error code =>
    rw [hd] at h
    cases h
  | ok i' =>
    rw [hd, testBusy] at h
    split at h
    · cases h
    · cases h
      exact hostAccess_of_ok hd

end Sys2Proof.Machine
end

section
/-! PROOFS. The statements of the family 'encoding' (30_encoding.md R74, R76). -/

namespace Sys2Proof.Machine

/-- Settles O5: the tests of R74 in their order are `decode` with BUSY's test in its place, and an access follows
that. -/
theorem accessFollowsTheTestOrder : Obligations.AccessFollowsTheTestOrder := by
  intro s tx hf
  rw [decodeWithBusy_eq]
  cases h : testBusy s.sha.busy (decode tx) with
  | ok i => exact hostAccess_of_testBusy_ok h
  | error code => exact hostAccess_of_testBusy_error hf h

/-- Settles O6: each class of R76 fails a test of `decode` that names its code. -/
theorem illegalTransactionsFault : Obligations.IllegalTransactionsFault := by
  intro s tx hf
  refine ⟨fun hrow => ?_, fun hs => ?_, fun hs ha => ?_, fun hs ha hr => ?_, fun hw => ?_, fun hr => ?_,
    fun hw h16 => ?_, fun hw h3 h15 => ?_⟩
  · obtain ⟨code, hd⟩ := decode_of_uncovered hrow
    exact ⟨_, hostAccess_of_error hf hd⟩
  · exact takesFault_of_le hf (decode_badSize hs) (by decide)
  · have ha' : (txAddr tx).extractLsb' 0 2 ≠ 0#2 := mt (extractLsb'_low_eq_iff _ 2 _).mp ha
    exact takesFault_of_le hf (decode_misaligned hs ha') (by decide)
  · have ha' : (txAddr tx).extractLsb' 0 2 = 0#2 := (extractLsb'_low_eq_iff _ 2 _).mpr ha
    exact takesFault_of_le hf (decode_unmapped hs ha' (registerAt_reserved hr)) (by decide)
  · have hd : decode tx = .error .writeToReadOnly := hw.elim decode_write_status fun ⟨_, hi⟩ => decode_write_hash hi
    exact takesFault_of_lt hf hd (by decide)
  · exact takesFault_of_lt hf (decode_read_ctrl hr) (by decide)
  · exact takesFault_of_lt hf ((decode_write_ctrl hw).trans (decodeCommand_reserved h16)) (by decide)
  · exact takesFault_of_lt hf ((decode_write_ctrl hw).trans (decodeCommand_illegal h3 h15)) (by decide)

end Sys2Proof.Machine
end

section
/-! SUPPORT. The operations of the arithmetic unit as arithmetic on a word's value and as its bits (40_arith.md
R101, R103, R104, R108, R109). -/

namespace Sys2Proof.Machine

theorem toNat_add32 (x y : Word) : (add32 x y).toNat = (x.toNat + y.toNat) % 2 ^ 32 := by
  rw [add32_eq, BitVec.toNat_add]

theorem add32_zero (x : Word) : add32 x 0#32 = x := by
  rw [add32_eq, BitVec.add_zero]

theorem toNat_shr (x : Word) (n : Nat) : (shr x n).toNat = x.toNat / 2 ^ n := by
  rw [shr, BitVec.toNat_ushiftRight, Nat.shiftRight_eq_div_pow]

/-- SHR brings in zeros: a bit of the result is a bit of the word, or 0 above it. -/
theorem getLsbD_shr (x : Word) (n k : Nat) :
    (shr x n).getLsbD k = (decide (k + n < 32) && x.getLsbD (k + n)) := by
  rw [shr, BitVec.getLsbD_ushiftRight, Nat.add_comm n k]
  by_cases h : k + n < 32
  · simp [h]
  · have hge : 32 ≤ k + n := by omega
    simp [h, BitVec.getLsbD_of_ge x (k + n) hge]

/-- A bit of a rotated word comes from the right shift below 32 - n and from the left shift from there on. -/
theorem getLsbD_rotr {n k : Nat} (x : Word) (hn : 1 ≤ n) (hn' : n ≤ 31) (hk : k < 32) :
    (rotr x n).getLsbD k = x.getLsbD ((k + n) % 32) := by
  rw [rotr, BitVec.getLsbD_or, BitVec.getLsbD_ushiftRight, BitVec.getLsbD_shiftLeft, Nat.add_comm n k]
  by_cases h : k + n < 32
  · have hbelow : k < 32 - n := by omega
    simp [Nat.mod_eq_of_lt h, hbelow]
  · have hwrap : (k + n) % 32 = k - (32 - n) := by omega
    have habove : ¬ k < 32 - n := by omega
    have hge : 32 ≤ k + n := by omega
    simp [hwrap, hk, habove, BitVec.getLsbD_of_ge x (k + n) hge]

theorem getLsbD_ch {k : Nat} (x y z : Word) (hk : k < 32) :
    (ch x y z).getLsbD k = if x.getLsbD k then y.getLsbD k else z.getLsbD k := by
  rw [ch, BitVec.getLsbD_xor, BitVec.getLsbD_and, BitVec.getLsbD_and, BitVec.getLsbD_not]
  cases x.getLsbD k <;> simp [hk]

theorem getLsbD_maj (x y z : Word) (k : Nat) :
    (maj x y z).getLsbD k =
      (x.getLsbD k && y.getLsbD k ^^ x.getLsbD k && z.getLsbD k ^^ y.getLsbD k && z.getLsbD k) := by
  simp [maj]

/-- The exclusive or of the three pairwise conjunctions is the majority. -/
theorem xor_of_ands_eq_true_iff (a b c : Bool) :
    (a && b ^^ a && c ^^ b && c) = true ↔ 2 ≤ a.toNat + b.toNat + c.toNat := by
  revert a b c
  decide

end Sys2Proof.Machine
end

section
/-! PROOFS. The statements of the family 'arith' (40_arith.md R101, R103, R104, R108-R113). -/

namespace Sys2Proof.Machine

/-- Settles O46: ADD32 is addition of bit vectors, which is modular; the rest are the rule's corner cases. -/
theorem add32IsModular : Obligations.Add32IsModular :=
  ⟨toNat_add32, by decide, by decide, by decide, add32_zero, by decide⟩

/-- Settles O48: each bit comes from one of rotr's two shifts, the other is 0 there. -/
theorem rotrRotatesBits : Obligations.RotrRotatesBits :=
  fun x _ _ hn hn' hk => getLsbD_rotr x hn hn' hk

/-- Settles O49: a bit from 32 - n up is one the shift brought in. -/
theorem shrIsFloor : Obligations.ShrIsFloor := by
  intro x n
  refine ⟨toNat_shr x n, fun k hk => ?_⟩
  have habove : ¬ k + n < 32 := by omega
  simp [getLsbD_shr, habove]

/-- Settles O50: a bit of Ch is chosen by x's bit, and the three conjunctions of Maj vote. -/
theorem chChoosesAndMajVotes : Obligations.ChChoosesAndMajVotes := by
  intro x y z k hk
  refine ⟨getLsbD_ch x y z hk, ?_⟩
  rw [getLsbD_maj]
  exact xor_of_ands_eq_true_iff _ _ _

/-- Settles O51: each sigma is an exclusive or, bit by bit, of the rotations' and the shift's bits. -/
theorem sigmaFunctionsBitwise : Obligations.SigmaFunctionsBitwise := by
  intro x k hk
  refine ⟨?_, ?_, ?_, ?_⟩
  · simp only [bigSigma0, BitVec.getLsbD_xor, getLsbD_rotr, hk, Nat.reduceLeDiff]
  · simp only [bigSigma1, BitVec.getLsbD_xor, getLsbD_rotr, hk, Nat.reduceLeDiff]
  · simp only [smallSigma0, BitVec.getLsbD_xor, getLsbD_rotr, getLsbD_shr, hk, Nat.reduceLeDiff]
  · simp only [smallSigma1, BitVec.getLsbD_xor, getLsbD_rotr, getLsbD_shr, hk, Nat.reduceLeDiff]

end Sys2Proof.Machine
end

section
/-! SUPPORT. The engine's step in each case it can take: what a round step reads (41_schedule.md R121), and the round
step and the final step as whole next states (42_compression.md R133, R134). -/

namespace Sys2Proof.Machine

/-- W[t] as the sum of R121, a chain of additions of bit vectors (40_arith.md R102). -/
theorem expandWord_eq (w2 w7 w15 w16 : Word) :
    expandWord w2 w7 w15 w16 = smallSigma1 w2 + w7 + smallSigma0 w15 + w16 := by
  simp only [expandWord, sum32_cons, sum32_nil, BitVec.add_zero, BitVec.add_assoc]

/-- The round function on eight named working variables (42_compression.md R130). -/
theorem sha256Round_vars (t : Fin 64) (a b c d e f g h w : Word) :
    sha256Round t #v[a, b, c, d, e, f, g, h] w =
      #v[add32 (sum32 [h, bigSigma1 e, ch e f g, K[t], w]) (sum32 [bigSigma0 a, maj a b c]), a, b, c,
        add32 d (sum32 [h, bigSigma1 e, ch e f g, K[t], w]), e, f, g] := rfl

/-- A register file is `written` of the words its entries hold. -/
theorem eq_written_of_get {n : Nat} {xs : Vector (Option Word) n} {ws : Vector Word n}
    (h : ∀ i : Fin n, xs[i] = some ws[i]) : xs = written ws := by
  ext i hi : 1
  rw [written_get]
  exact h ⟨i, hi⟩

/-! ### The schedule word a round step reads -/

section
variable {w : Vector (Option Word) 64} {t : Fin 64}

theorem scheduleWord_loaded (ht : t.val < 16) : scheduleWord w t = w[t] := if_pos ht

theorem scheduleWord_expanded {w2 w7 w15 w16 : Word} (ht : 16 ≤ t.val) (h2 : w[t.val - 2] = some w2)
    (h7 : w[t.val - 7] = some w7) (h15 : w[t.val - 15] = some w15) (h16 : w[t.val - 16] = some w16) :
    scheduleWord w t = some (expandWord w2 w7 w15 w16) := by
  simp only [scheduleWord, if_neg (Nat.not_lt.mpr ht), h2, h7, h15, h16]

/-- Round step t reads no ⊥ where W holds the words loaded and those expanded before it. -/
theorem exists_scheduleWord (hw : ∀ j : Fin 64, j.val < 16 ∨ j.val < t.val → w[j].isSome = true) :
    ∃ x, scheduleWord w t = some x := by
  by_cases ht : t.val < 16
  · rw [scheduleWord_loaded ht]
    exact Option.isSome_iff_exists.mp (hw t (.inl ht))
  · have hread : ∀ d (hd : 1 ≤ d ∧ d ≤ 16), ∃ y, w[t.val - d] = some y := fun d hd =>
      Option.isSome_iff_exists.mp (hw ⟨t.val - d, by omega⟩ (.inr (show t.val - d < t.val by omega)))
    obtain ⟨_, h2⟩ := hread 2 (by decide)
    obtain ⟨_, h7⟩ := hread 7 (by decide)
    obtain ⟨_, h15⟩ := hread 15 (by decide)
    obtain ⟨_, h16⟩ := hread 16 (by decide)
    exact ⟨_, scheduleWord_expanded (Nat.not_lt.mp ht) h2 h7 h15 h16⟩

end

/-! ### The round step's update -/

section
variable (c : ShaState) {n : Counter} (h : n.toNat < 64) (x : Word) (v : Vector Word 8)

theorem ShaState.afterRound_loaded (hn : n.toNat < 16) :
    c.afterRound n h x v = { c with v := written v, t := some (n + 1#7) } := by
  rw [ShaState.afterRound, if_pos hn]

theorem ShaState.afterRound_expanded (hn : 16 ≤ n.toNat) :
    c.afterRound n h x v =
      { c with w := c.w.set n.toNat (some x), v := written v, t := some (n + 1#7) } := by
  rw [ShaState.afterRound, if_neg (Nat.not_lt.mpr hn)]

end

/-! ### The two steps -/

section
variable {s t : State}

theorem engineStep_round {n : Counter} (hn : n.toNat < 64) {x : Word} {v : Vector Word 8} (hf : s.sha.fault = none)
    (ht : s.sha.t = some n) (hx : scheduleWord s.sha.w ⟨n.toNat, hn⟩ = some x) (hv : s.sha.v = written v) :
    engineStep s = .next { s with sha := s.sha.afterRound n hn x (sha256Round ⟨n.toNat, hn⟩ v x) } := by
  simp only [engineStep, unlessEnded_live hf, ht, dif_pos hn, roundStep, hx, hv, allWords_written]

theorem engineStep_final {h v : Vector Word 8} (hf : s.sha.fault = none) (ht : s.sha.t = some 64#7)
    (hh : s.sha.hash = written h) (hv : s.sha.v = written v) :
    engineStep s = .next { s with sha := s.sha.afterFinal (addState h v) } := by
  have h64 : ¬ (64#7).toNat < 64 := by decide
  simp only [engineStep, unlessEnded_live hf, ht, dif_neg h64, reduceIte, finalStep, hh, hv, allWords_written]

/-- The engine writes no FAULT (R137). -/
theorem engineStep_fault (h : engineStep s = .next t) : t.sha.fault = s.sha.fault := by
  obtain ⟨-, ⟨n, hn, -, hr⟩ | ⟨-, hr⟩⟩ := engineStep_next h
  · obtain ⟨x, v, -, -, rfl⟩ := roundStep_next hr
    exact ShaState.afterRound_fault ..
  · obtain ⟨h, v, -, -, rfl⟩ := finalStep_next hr
    exact ShaState.afterFinal_fault ..

/-- While a compression runs in a live state that meets the invariant, the engine has a step: nothing that step reads
is ⊥ (R35, R137). -/
theorem exists_engineStep (hi : s.Inv) (hf : s.sha.fault = none) (hb : s.sha.busy = true) :
    ∃ t, engineStep s = .next t := by
  obtain ⟨hhash, hrun⟩ := hi
  rw [if_pos hb] at hrun
  obtain ⟨hvalid, -, hv, n, hn, hle, hw⟩ := hrun
  obtain ⟨v, hv⟩ := exists_written_of_isSome hv
  by_cases hlt : n.toNat < 64
  · obtain ⟨x, hx⟩ := exists_scheduleWord (t := ⟨n.toNat, hlt⟩) fun j hj => (hw j).mpr hj
    exact ⟨_, engineStep_round hlt hf hn hx hv⟩
  · obtain rfl : n = 64#7 := by bv_omega
    rw [ShaState.HashOk, if_pos hvalid] at hhash
    obtain ⟨h, hh⟩ := exists_written_of_isSome hhash
    exact ⟨_, engineStep_final hf hn hh hv⟩

end

end Sys2Proof.Machine
end

section
/-! PROOFS. The statements of the family 'compression' (42_compression.md R130, R133, R137). -/

namespace Sys2Proof.Machine

/-- Settles O11: a step after which FAULT holds a record is none of the engine's, since those leave FAULT as it was. -/
theorem engineStepsCannotFault : Obligations.EngineStepsCannotFault := by
  refine ⟨fun s hi hf hb => ?_, fun s t _ hstep hfault => ?_⟩
  · obtain ⟨t, ht⟩ := exists_engineStep hi hf hb
    exact ⟨t, ht, (engineStep_fault ht).trans hf⟩
  · obtain ⟨hf, ⟨-, -, rfl⟩ | ⟨-, turns, he⟩ | ⟨line, rest, -, hp, -⟩⟩ := step_next hstep
    · exact absurd hf hfault
    · exact absurd ((engineStep_fault he).trans hf) hfault
    · exact ⟨line, rest, hp⟩

/-- Settles O31: the step uses W[n] as it was loaded below 16 and by the recurrence from there on. -/
theorem roundStepEffect : Obligations.RoundStepEffect := by
  intro s n hn v hf _ ht hv
  have hv := eq_written_of_get hv
  refine ⟨fun x hlow hx => ?_, fun w2 w7 w15 w16 hhigh h2 h7 h15 h16 => ?_⟩
  · have hword := (scheduleWord_loaded (t := ⟨n.toNat, hn⟩) hlow).trans hx
    exact ⟨_, engineStep_round hn hf ht hword hv, ShaState.afterRound_loaded _ hn _ _ hlow⟩
  · have hword := scheduleWord_expanded (t := ⟨n.toNat, hn⟩) hhigh h2 h7 h15 h16
    rw [expandWord_eq] at hword
    exact ⟨_, engineStep_round hn hf ht hword hv, ShaState.afterRound_expanded _ hn _ _ hhigh⟩

/-- Settles O30: T1 and T2 are the rule's sums, grouped from the other end. -/
theorem roundFunction : Obligations.RoundFunction := by
  intro t a b c d e f g h w
  have ht1 : sum32 [h, bigSigma1 e, ch e f g, K[t], w] = h + bigSigma1 e + ch e f g + K[t] + w := by
    simp only [sum32_cons, sum32_nil, BitVec.add_zero, BitVec.add_assoc]
  have ht2 : sum32 [bigSigma0 a, maj a b c] = bigSigma0 a + maj a b c := by
    simp only [sum32_cons, sum32_nil, BitVec.add_zero]
  simp only [sha256Round_vars, ht1, ht2, add32_eq]

end Sys2Proof.Machine
end

section
/-! SUPPORT. The converse of the inversion of `exec`: with BUSY = 0 an operation whose effect is defined performs it.
Beside it, the descriptor each operation records, the bits of STATUS, and everything a host access can answer. -/

namespace Sys2Proof.Machine

/-! ### What an operation does where it faults nowhere -/

variable {i : Instr} {c c' : ShaState} {rd : Option Word} {s t : State} {tx : Tx}

/-- No operation's own effect writes FAULT. -/
theorem Performs.fault_eq (hp : Performs i c c' rd) : c'.fault = c.fault := by
  cases hp with
  | nop | rdStatus | rdBlk | rdHash => rfl
  | init => exact ShaState.loadH0_fault _
  | compress => exact ShaState.accept_fault _
  | wrBlk => exact ShaState.setBlk_fault ..

/-- With BUSY = 0 an operation whose effect is defined performs that effect. -/
theorem exec_of_performs (hf : s.sha.fault = none) (hb : s.sha.busy = false) (hp : Performs i s.sha c rd) :
    exec i s = .next { s with sha := c, rdata := rd, received := s.received ++ rd.toList } := by
  cases hp with
  | rdStatus => exact unlessEnded_live hf
  | nop | init | wrBlk => exact (unlessBusy_idle hf hb).trans (by simp [done])
  | compress _ hv hblk =>
    refine (unlessBusy_idle hf hb).trans ?_
    rw [if_neg (by simp [hv]), if_neg fun ⟨j, hj⟩ => hblk j hj]
    simp [done]
  | rdBlk _ j x y hy =>
    refine (unlessBusy_idle hf hb).trans ?_
    rw [hy]
    rfl
  | rdHash _ k x y hv hy =>
    refine (unlessBusy_idle hf hb).trans ?_
    rw [if_neg (by simp [hv]), hy]
    rfl

/-- The read of STATUS is performed whatever BUSY is (43_commands.md R154). -/
theorem exec_rdStatus (x : Word) (hf : s.sha.fault = none) :
    exec (.rdStatus x) s = reply (statusWord s.sha) s := unlessEnded_live hf

/-! ### What an operation's fault records (30_encoding.md R74, R75) -/

/-- A fault raised by operation `i`, with the descriptor and the WDATA of its transaction written out. -/
theorem takesFault_raiseBy {code : FaultCode} {desc : Desc} {wdata : Word} (hd : txDesc (encode i) = desc)
    (hw : txWdata (encode i) = wdata) : TakesFault (raiseBy i code s) s ⟨code, desc, wdata⟩ := by
  subst hd hw
  exact ⟨_, rfl, rfl, rfl⟩

/-- While BUSY = 1 an operation other than RD_STATUS takes fault 4 with its own descriptor and WDATA. -/
theorem takesFault_exec_busy {desc : Desc} {wdata : Word} (hf : s.sha.fault = none) (hb : s.sha.busy = true)
    (hi : allowedWhileBusy i = false) (hd : txDesc (encode i) = desc) (hw : txWdata (encode i) = wdata) :
    TakesFault (exec i s) s ⟨.busyAccess, desc, wdata⟩ :=
  exec_busy hf hb hi ▸ takesFault_raiseBy hd hw

theorem txDesc_encode_wrBlk (j : Fin 16) (x : Word) :
    txDesc (encode (.wrBlk j x)) = BitVec.ofNat 11 (0x640 + 4 * j.val) := by
  rw [encode, txDesc_mkTx]
  revert j
  decide

theorem txDesc_encode_rdBlk (j : Fin 16) (x : Word) :
    txDesc (encode (.rdBlk j x)) = BitVec.ofNat 11 (0x240 + 4 * j.val) := by
  rw [encode, txDesc_mkTx]
  revert j
  decide

theorem txDesc_encode_rdHash (k : Fin 8) (x : Word) :
    txDesc (encode (.rdHash k x)) = BitVec.ofNat 11 (0x280 + 4 * k.val) := by
  rw [encode, txDesc_mkTx]
  revert k
  decide

/-! ### The bits of STATUS (10_state.md R33) -/

theorem statusWord_getLsbD_zero (c : ShaState) : (statusWord c).getLsbD 0 = c.busy := by
  rw [statusWord, BitVec.getLsbD_setWidth, BitVec.getLsbD_append]
  simp

theorem statusWord_getLsbD_one (c : ShaState) : (statusWord c).getLsbD 1 = c.hvalid := by
  rw [statusWord, BitVec.getLsbD_setWidth, BitVec.getLsbD_append]
  simp

theorem statusWord_getLsbD_high (c : ShaState) {k : Nat} (hk : 2 ≤ k) : (statusWord c).getLsbD k = false := by
  rw [statusWord, BitVec.getLsbD_setWidth, BitVec.getLsbD_of_ge _ k hk, Bool.and_false]

/-! ### Host accesses -/

/-- If a host access answers a next state, the run had not ended, and the access took one fault, recording its own
transaction, or it was an operation's word and performed that operation's effect. -/
theorem hostAccess_next (h : hostAccess tx s = .next t) :
    s.sha.fault = none ∧
      ((∃ code, t = { s with sha := s.sha.setFault ⟨code, txDesc tx, txWdata tx⟩, rdata := none }) ∨
        ∃ i c rd, encode i = tx ∧ (s.sha.busy = false ∨ ∃ x, i = .rdStatus x) ∧ Performs i s.sha c rd ∧
          t = { s with sha := c, rdata := rd, received := s.received ++ rd.toList }) := by
  unfold hostAccess at h
  split at h
  next i hd =>
    obtain ⟨hf, hfault | ⟨hb, c, rd, hp, ht⟩⟩ := exec_next h
    · exact ⟨hf, .inl (encode_of_decode hd ▸ hfault)⟩
    · exact ⟨hf, .inr ⟨i, c, rd, encode_of_decode hd, hb, hp, ht⟩⟩
  next => exact (rejectWord_next h).imp_right .inl

end Sys2Proof.Machine
end

section
/-! PROOFS. The statements of the family 'commands' (43_commands.md R151, R152, R154-R158). -/

namespace Sys2Proof.Machine

/-- Settles O22: an access took a fault or performed an operation's effect, and each effect is its operation's case. -/
theorem hostAccessFrame : Obligations.HostAccessFrame := by
  intro s t tx h
  obtain ⟨hf, ⟨code, rfl⟩ | ⟨i, c, rd, rfl, -, hp, rfl⟩⟩ := hostAccess_next h
  · exact ⟨fun hnone => by simp at hnone, fun _ => rfl⟩
  · refine ⟨fun _ => ?_, fun hfault => absurd (hp.fault_eq.trans hf) hfault⟩
    cases hp with
    | nop => exact .inl ⟨by decide, rfl⟩
    | init => exact .inr (.inl ⟨by decide, rfl⟩)
    | compress => exact .inr (.inr (.inl ⟨by decide, rfl⟩))
    | wrBlk _ j x =>
      refine .inr (.inr (.inr (.inl ⟨j, txDesc_encode_wrBlk j x, ?_⟩)))
      rw [encode, txWdata_mkTx]
      rfl
    | rdStatus | rdBlk | rdHash =>
      refine .inr (.inr (.inr (.inr ⟨?_, rfl⟩)))
      rw [encode, txDir_mkTx]

/-- Settles O13: NOP's effect is the core as it was. -/
theorem nopChangesNothing : Obligations.NopChangesNothing := fun s hf =>
  ⟨fun hb => ⟨_, exec_of_performs hf hb (.nop s.sha), rfl⟩,
    fun hb => takesFault_exec_busy hf hb rfl (by decide) (by decide)⟩

/-- Settles O14: INIT leaves FAULT and BUSY as they were, so a second one performs too, and loads the same words. -/
theorem initLoadsH0 : Obligations.InitLoadsH0 := by
  intro s hf
  refine ⟨fun hb => ?_, fun hb => takesFault_exec_busy hf hb rfl (by decide) (by decide)⟩
  refine ⟨_, exec_of_performs hf hb (.init s.sha), rfl, ?_⟩
  exact ⟨_, exec_of_performs hf hb (.init s.sha.loadH0), rfl⟩

/-- Settles O16: RD_STATUS performs its read whether BUSY = 1 or not, and returns the word of the two flags. -/
theorem rdStatusReturnsTheFlags : Obligations.RdStatusReturnsTheFlags := fun s x hf =>
  ⟨_, _, exec_rdStatus x hf, rfl, rfl, statusWord_getLsbD_zero s.sha,
    statusWord_getLsbD_one s.sha, fun _ => statusWord_getLsbD_high s.sha⟩

/-- Settles O17: WR_BLK's effect is the update of one word of BLK. -/
theorem wrBlkWritesOneWord : Obligations.WrBlkWritesOneWord := fun s j x hf =>
  ⟨fun hb => ⟨_, exec_of_performs hf hb (.wrBlk s.sha j x), rfl⟩,
    fun hb => takesFault_exec_busy hf hb rfl (txDesc_encode_wrBlk j x) (txWdata_mkTx ..)⟩

/-- Settles O18: RD_BLK performs its read where BLK[j] holds a word; where it is ⊥ its own rule raises fault 10. -/
theorem rdBlkReturnsTheWord : Obligations.RdBlkReturnsTheWord := by
  intro s j x hf
  refine ⟨fun y hb hy => ⟨_, exec_of_performs hf hb (.rdBlk s.sha j x y hy), rfl, rfl⟩, fun hb hnone => ?_,
    fun hb => takesFault_exec_busy hf hb rfl (txDesc_encode_rdBlk j x) (txWdata_mkTx ..)⟩
  have hexec : exec (.rdBlk j x) s = raiseBy (.rdBlk j x) .blockNotWritten s :=
    (unlessBusy_idle hf hb).trans (by rw [hnone])
  exact hexec ▸ takesFault_raiseBy (txDesc_encode_rdBlk j x) (txWdata_mkTx ..)

/-- Settles O19: RD_HASH performs its read where HASH is valid; before INIT its own rule raises fault 9. -/
theorem rdHashReturnsTheWord : Obligations.RdHashReturnsTheWord := by
  intro s k x hf
  refine ⟨fun y hb hv hy => ⟨_, exec_of_performs hf hb (.rdHash s.sha k x y hv hy), rfl, rfl⟩, fun hb hv => ?_,
    fun hb => takesFault_exec_busy hf hb rfl (txDesc_encode_rdHash k x) (txWdata_mkTx ..)⟩
  have hexec : exec (.rdHash k x) s = raiseBy (.rdHash k x) .hashNotValid s :=
    (unlessBusy_idle hf hb).trans (if_pos hv)
  exact hexec ▸ takesFault_raiseBy (txDesc_encode_rdHash k x) (txWdata_mkTx ..)

end Sys2Proof.Machine
end

section
/-! SUPPORT. Once FAULT holds a record neither agent has a step, whatever BUSY is: each guard of the model answers
`runEnded` (10_state.md R34, 60_exceptions.md R202). -/

namespace Sys2Proof.Machine

variable {s : State} {r : FaultRecord}

theorem step_ended (h : s.sha.fault = some r) : step s = .fault (.runEnded r) := unlessEnded_ended h

theorem engineStep_ended (h : s.sha.fault = some r) : engineStep s = .fault (.runEnded r) := unlessEnded_ended h

theorem exec_ended (i : Instr) (h : s.sha.fault = some r) : exec i s = .fault (.runEnded r) := by
  cases i with
  | rdStatus => exact unlessEnded_ended h
  | nop | init | compress | wrBlk | rdBlk | rdHash => exact unlessBusy_ended h

theorem hostAccess_ended (tx : Tx) (h : s.sha.fault = some r) : hostAccess tx s = .fault (.runEnded r) := by
  cases hd : decode tx with
  | ok i => exact (hostAccess_of_ok hd).trans (exec_ended i h)
  | error code =>
    simp only [hostAccess, hd]
    exact unlessEnded_ended h

end Sys2Proof.Machine
end

section
/-! PROOFS. The statements of the family 'exceptions' (60_exceptions.md R202). -/

namespace Sys2Proof.Machine

/-- Settles O21: FAULT is empty after an operation's own effect, so the access took a fault, and the record it left
ends the run. -/
theorem faultingAccessSetsOnlyFault : Obligations.FaultingAccessSetsOnlyFault := by
  intro s t tx h hfault
  obtain ⟨hf, ⟨code, rfl⟩ | ⟨i, c, rd, -, -, hp, rfl⟩⟩ := hostAccess_next h
  · exact ⟨⟨code, rfl, step_ended rfl, engineStep_ended rfl, fun tx' => hostAccess_ended tx' rfl⟩, rfl⟩
  · exact absurd (hp.fault_eq.trans hf) hfault

end Sys2Proof.Machine
end

section
/-! SUPPORT. The converse half of the codec: an operation's word decodes to it, and a word that a row of the opcode
table covers is the word of an operation of that row (30_encoding.md R74, R75). -/

namespace Sys2Proof

theorem registerAt_offset (r : Reg) : registerAt r.offset = some r := by
  cases r with
  | ctrl | status => rfl
  | blk j =>
    revert j
    decide
  | hash i => exact registerAt_hash_offset i

theorem offset_aligned (r : Reg) : r.offset.extractLsb' 0 2 = 0#2 := by
  cases r with
  | ctrl | status => rfl
  | blk j =>
    revert j
    decide
  | hash i => exact hash_offset_aligned i

section
variable {dir : Bool} {r : Reg} {x : Word}

/-- A word-sized transaction to a register passes the tests of size, alignment and mapping. -/
theorem fields_mkTx_register :
    txSize (mkTx dir size4 r.offset x) = size4 ∧ (txAddr (mkTx dir size4 r.offset x)).extractLsb' 0 2 = 0#2 ∧
      registerAt (txAddr (mkTx dir size4 r.offset x)) = some r :=
  ⟨txSize_mkTx .., (txAddr_mkTx ..).symm ▸ offset_aligned r, (txAddr_mkTx ..).symm ▸ registerAt_offset r⟩

end

/-- Every operation's word decodes to it. -/
theorem decode_encode (i : Instr) : decode (encode i) = .ok i := by
  cases i with
  | nop | init | compress => decide
  | rdStatus x =>
    obtain ⟨hs, ha, hr⟩ := fields_mkTx_register (dir := false) (r := .status) (x := x)
    rw [encode, decode_status hs ha hr]
    simp
  | wrBlk j x =>
    obtain ⟨hs, ha, hr⟩ := fields_mkTx_register (dir := true) (r := .blk j) (x := x)
    rw [encode, decode_blk hs ha hr]
    simp
  | rdBlk j x =>
    obtain ⟨hs, ha, hr⟩ := fields_mkTx_register (dir := false) (r := .blk j) (x := x)
    rw [encode, decode_blk hs ha hr]
    simp
  | rdHash k x =>
    obtain ⟨hs, ha, hr⟩ := fields_mkTx_register (dir := false) (r := .hash k) (x := x)
    rw [encode, decode_hash hs ha hr]
    simp

/-! ### The addresses the rows' masks select -/

theorem size_of_masked {size : BitVec 2} (h : size &&& 3 = 2) : size = size4 := by
  revert size
  decide

theorem exists_blk_of_masked {addr : Offset} (h : addr &&& 0xC3 = 0x40) : ∃ j, (Reg.blk j).offset = addr := by
  have all_offsets : ∀ addr : Offset, addr &&& 0xC3 = 0x40 → ∃ j, (Reg.blk j).offset = addr := by decide
  exact all_offsets addr h

theorem exists_hash_of_masked {addr : Offset} (h : addr &&& 0xE3 = 0x80) : ∃ k, (Reg.hash k).offset = addr := by
  have all_offsets : ∀ addr : Offset, addr &&& 0xE3 = 0x80 → ∃ k, (Reg.hash k).offset = addr := by decide
  exact all_offsets addr h

theorem and_full_byte (addr : Offset) : addr &&& 0xFF = addr := BitVec.and_allOnes

theorem and_full_word (x : Word) : x &&& 0xFFFFFFFF = x := BitVec.and_allOnes

/-- A word that a row covers is the word of an operation of the row's mnemonic. -/
theorem exists_encode_of_covers {tx : Tx} {row : OpcodeRow} (hmem : row ∈ opcodeTable) (h : row.covers tx = true) :
    ∃ i, encode i = tx ∧ i.mnemonic = row.mnemonic := by
  rw [← mkTx_fields tx] at h ⊢
  generalize txDir tx = dir, txSize tx = size, txAddr tx = addr, txWdata tx = x at h ⊢
  rw [Laws.EncodingInRow.opcodeTable_split] at hmem
  simp only [List.mem_cons, List.not_mem_nil, or_false] at hmem
  obtain rfl | rfl | rfl | rfl | rfl | rfl | rfl := hmem <;>
    simp only [Laws.EncodingInRow.covers_mkTx, Bool.and_eq_true, decide_eq_true_eq, and_full_byte,
      and_full_word] at h <;>
    obtain ⟨⟨⟨rfl, hsize⟩, haddr⟩, hx⟩ := h <;> obtain rfl := size_of_masked hsize
  · subst haddr hx
    exact ⟨.nop, rfl, rfl⟩
  · subst haddr hx
    exact ⟨.init, rfl, rfl⟩
  · subst haddr hx
    exact ⟨.compress, rfl, rfl⟩
  · subst haddr
    exact ⟨.rdStatus x, rfl, rfl⟩
  · obtain ⟨j, rfl⟩ := exists_blk_of_masked haddr
    exact ⟨.wrBlk j x, rfl, rfl⟩
  · obtain ⟨j, rfl⟩ := exists_blk_of_masked haddr
    exact ⟨.rdBlk j x, rfl, rfl⟩
  · obtain ⟨k, rfl⟩ := exists_hash_of_masked haddr
    exact ⟨.rdHash k x, rfl, rfl⟩

end Sys2Proof
end

section
/-! PROOFS. The codec's statements and the accesses BUSY admits (30_encoding.md R74, R75, 70_reset_and_hazards.md
R224). -/

namespace Sys2Proof.Machine

/-- Settles O2: each operation's word passes the tests of R74 and reaches its own register. -/
theorem decodeEncodeAgree : Obligations.DecodeEncodeAgree := decode_encode

/-- Settles O3: a word is the encoding of the operation it decodes to. -/
theorem encodeDecodeAgree : Obligations.EncodeDecodeAgree := fun _ _ => encode_of_decode

/-- Settles O4: a covered word is an operation's word, which decodes to that operation; and an operation's word is
covered by the row of its mnemonic. -/
theorem eachRowSelectsItsWords : Obligations.EachRowSelectsItsWords := by
  intro tx row hmem
  constructor
  · intro hcov
    obtain ⟨i, rfl, hname⟩ := exists_encode_of_covers hmem hcov
    exact ⟨i, decode_encode i, hname⟩
  · rintro ⟨i, hd, hname⟩
    rw [← encode_of_decode hd, covers_encode i row hmem, hname]
    exact beq_self_eq_true _

/-- Settles O20: with BUSY = 1 every answer of `decode` but a read of STATUS gives way to a fault of code at most 4. -/
theorem busyAdmitsOnlyStatusReads : Obligations.BusyAdmitsOnlyStatusReads := by
  intro s tx hf hb hread
  cases hd : decode tx with
  | error code =>
    have hfault := hostAccess_of_error hf hd
    refine ⟨_, ?_, hfault, fun _ hok => by cases hok⟩
    by_cases hcode : code.number ≤ 4
    · rwa [codeWithBusy_of_le hcode]
    · rw [codeWithBusy_of_lt (Nat.not_le.mp hcode), if_pos hb]
      decide
  | ok i =>
    have hnot : allowedWhileBusy i = false := by
      cases i with
      | rdStatus x => exact absurd hd (hread x)
      | nop | init | compress | wrBlk | rdBlk | rdHash => rfl
    have herror : testBusy s.sha.busy (decode tx) = .error .busyAccess := by
      rw [hd, testBusy, if_pos ⟨hb, hnot⟩]
    exact ⟨.busyAccess, by decide, hostAccess_of_testBusy_error hf herror, fun _ _ => rfl⟩

end Sys2Proof.Machine
end

section
/-! SUPPORT. Everything a step can do to the core, said once: it is kept, it takes a fault, the engine moves it, or,
with BUSY = 0, the host's operation performs its effect. Every invariant below is a case split over this. -/

namespace Sys2Proof.Machine

variable {s t : State}

/-- What one engine step does to the core: a round step (42_compression.md R133) or the final step (R134). -/
inductive EngineMoves (c : ShaState) : ShaState → Prop
  | round {n : Counter} (hn : n.toNat < 64) {x : Word} {v : Vector Word 8} (ht : c.t = some n)
      (hx : scheduleWord c.w ⟨n.toNat, hn⟩ = some x) (hv : c.v = written v) :
      EngineMoves c (c.afterRound n hn x (sha256Round ⟨n.toNat, hn⟩ v x))
  | final {h v : Vector Word 8} (ht : c.t = some 64#7) (hh : c.hash = written h) (hv : c.v = written v) :
      EngineMoves c (c.afterFinal (addState h v))

/-- Which of the two steps it is, the counter says: below 64 it advances, at 64 the compression ends. -/
theorem EngineMoves.at_counter {c c' : ShaState} {n : Counter} (he : EngineMoves c c') (hn : c.t = some n) :
    (n.toNat < 64 ∧ c'.busy = c.busy ∧ c'.t = some (n + 1#7)) ∨
      (n = 64#7 ∧ c'.busy = false ∧ c'.hvalid = c.hvalid) := by
  cases he with
  | round hlt ht =>
    obtain rfl := Option.some.inj (hn.symm.trans ht)
    exact .inl ⟨hlt, rfl, rfl⟩
  | final ht => exact .inr ⟨Option.some.inj (hn.symm.trans ht), rfl, rfl⟩

/-- An engine step that answers a next state moves the core and nothing else. -/
theorem engineMoves_of_engineStep (h : engineStep s = .next t) :
    EngineMoves s.sha t.sha ∧ t = { s with sha := t.sha } := by
  obtain ⟨-, ⟨n, hn, ht, hr⟩ | ⟨ht, hr⟩⟩ := engineStep_next h
  · obtain ⟨x, v, hx, hv, rfl⟩ := roundStep_next hr
    exact ⟨.round hn ht hx hv, rfl⟩
  · obtain ⟨h, v, hh, hv, rfl⟩ := finalStep_next hr
    exact ⟨.final ht hh hv, rfl⟩

/-- What one step of the machine in state `s` does to the core. -/
inductive StepsCore (s : State) : ShaState → Prop
  | kept : StepsCore s s.sha
  | faulted (r : FaultRecord) : StepsCore s (s.sha.setFault r)
  | engine {c : ShaState} (hb : s.sha.busy = true) (h : EngineMoves s.sha c) : StepsCore s c
  | access {i : Instr} {c : ShaState} {rd : Option Word} {rest : List HostLine} (hb : s.sha.busy = false)
      (hp : s.pending = .tx (encode i) :: rest) (h : Performs i s.sha c rd) : StepsCore s c

/-- A host access keeps the core, makes it take a fault, or with BUSY = 0 performs its word's operation. -/
theorem hostAccess_core {tx : Tx} (h : hostAccess tx s = .next t) :
    t.sha = s.sha ∨ (∃ r, t.sha = s.sha.setFault r) ∨
      (s.sha.busy = false ∧ ∃ i rd, encode i = tx ∧ Performs i s.sha t.sha rd) := by
  obtain ⟨-, ⟨code, rfl⟩ | ⟨i, c, rd, hi, hb | ⟨x, rfl⟩, hp, rfl⟩⟩ := hostAccess_next h
  · exact .inr (.inl ⟨_, rfl⟩)
  · exact .inr (.inr ⟨hb, i, rd, hi, hp⟩)
  · cases hp
    exact .inl rfl

/-- A POLL is a read of STATUS: it keeps the core, and uses no turn of its own. -/
theorem hostStep_poll_next (h : hostStep .poll s = .next t) : t.sha = s.sha ∧ t.turns = s.turns := by
  simp only [hostStep, hostAccess_of_ok decode_poll] at h
  split at h
  next u hu =>
    cases h
    obtain ⟨-, hu⟩ := unlessEnded_next hu
    cases hu
    exact ⟨pollAgain_sha _, pollAgain_turns _⟩
  next => cases h
  next => cases h

/-- If the step answers a next state, the run had not ended and the core went one of these ways. -/
theorem step_core (h : step s = .next t) : s.sha.fault = none ∧ StepsCore s t.sha := by
  obtain ⟨hf, ⟨-, -, rfl⟩ | ⟨hb, turns, he⟩ | ⟨line, rest, turns, hp, -, hl⟩⟩ := step_next h
  · exact ⟨hf, .kept⟩
  · exact ⟨hf, .engine hb (engineMoves_of_engineStep he).1⟩
  · refine ⟨hf, ?_⟩
    cases line with
    | poll =>
      rw [(hostStep_poll_next hl).1]
      exact .kept
    | tx word =>
      obtain hsame | ⟨r, hr⟩ | ⟨hb, i, rd, rfl, hperf⟩ := hostAccess_core hl
      · rw [hsame]
        exact .kept
      · rw [hr]
        exact .faulted r
      · exact .access hb hp hperf

/-! ### The invariant (10_state.md R22, R23, R27, R35) -/

section
variable {c c' : ShaState}

theorem ShaState.inv_idle (hb : c.busy = false) : c.Inv ↔ c.HashOk ∧ c.IdleOk := by
  simp [ShaState.Inv, hb]

theorem ShaState.inv_running (hb : c.busy = true) : c.Inv ↔ c.HashOk ∧ c.RunningOk := by
  simp [ShaState.Inv, hb]

theorem ShaState.hashOk_valid (hv : c.hvalid = true) : c.HashOk ↔ ∀ i : Fin 8, c.hash[i].isSome = true := by
  simp [ShaState.HashOk, hv]

theorem isSome_written {n : Nat} (ws : Vector Word n) (i : Fin n) : (written ws)[i].isSome = true := by
  simp

theorem ShaState.hashOk_written {h : Vector Word 8} (hv : c.hvalid = true) (hh : c.hash = written h) : c.HashOk :=
  (ShaState.hashOk_valid hv).mpr fun i => hh ▸ isSome_written h i

theorem ShaState.inv_setFault (r : FaultRecord) : (c.setFault r).Inv ↔ c.Inv := Iff.rfl

/-- After the accept step W holds BLK's sixteen words and no other. -/
theorem isSome_loadSchedule_iff {blk : Vector (Option Word) 16} (hblk : ∀ j : Fin 16, blk[j] ≠ none) (j : Fin 64) :
    (loadSchedule blk (unwritten 64))[j].isSome = true ↔ j.val < 16 := by
  by_cases hj : j.val < 16
  · have hsome := Option.isSome_iff_ne_none.mpr (hblk ⟨j.val, hj⟩)
    simpa [loadSchedule_get_low _ _ _ hj, hj] using hsome
  · simp [loadSchedule_get_high _ _ _ j.isLt (Nat.not_lt.mp hj), hj]

/-- Round step n writes W[n] where n ≥ 16, and no other word of W. -/
theorem ShaState.afterRound_w_get {n : Counter} (hn : n.toNat < 64) (x : Word) (v : Vector Word 8) (j : Nat)
    (hj : j < 64) : (c.afterRound n hn x v).w[j] = if 16 ≤ n.toNat ∧ j = n.toNat then some x else c.w[j] := by
  rw [ShaState.afterRound_w]
  by_cases hlow : n.toNat < 16
  · simp [hlow, Nat.not_le.mpr hlow]
  · simp [hlow, Nat.not_lt.mp hlow, Vector.getElem_set, eq_comm]

/-- Round step n adds exactly W[n] to the words W holds. -/
theorem isSome_afterRound_w {n : Counter} (hn : n.toNat < 64) (x : Word) (v : Vector Word 8)
    (hw : ∀ j : Fin 64, c.w[j].isSome = true ↔ j.val < 16 ∨ j.val < n.toNat) (j : Fin 64) :
    (c.afterRound n hn x v).w[j].isSome = true ↔ j.val < 16 ∨ j.val < n.toNat + 1 := by
  have hget := ShaState.afterRound_w_get (c := c) hn x v j.val j.isLt
  rw [Fin.getElem_fin, hget]
  split
  next hthis => exact iff_of_true rfl (by omega)
  next hother =>
    rw [← Fin.getElem_fin, hw j]
    omega

/-- Every operation's own effect keeps the invariant of an idle core. -/
theorem Performs.inv {i : Instr} {rd : Option Word} (hp : Performs i c c' rd) (hb : c.busy = false) (hc : c.Inv) :
    c'.Inv := by
  obtain ⟨hhash, ht, hv, hw⟩ := (ShaState.inv_idle hb).mp hc
  cases hp with
  | nop | rdStatus | rdBlk | rdHash => exact hc
  | init =>
    have hloaded : c.loadH0.HashOk := ShaState.hashOk_written rfl rfl
    exact (ShaState.inv_idle (c := c.loadH0) hb).mpr ⟨hloaded, ht, hv, hw⟩
  | wrBlk _ j x => exact (ShaState.inv_idle (c := c.setBlk j x) hb).mpr ⟨hhash, ht, hv, hw⟩
  | compress _ hvalid hblk =>
    refine (ShaState.inv_running rfl).mpr ⟨hhash, hvalid, rfl, (ShaState.hashOk_valid hvalid).mp hhash, 0#7, rfl,
      by decide, fun j => ?_⟩
    rw [ShaState.accept_w, hw, isSome_loadSchedule_iff hblk]
    simp

/-- A round step and the final step keep the invariant of a running core. -/
theorem EngineMoves.inv (he : EngineMoves c c') (hb : c.busy = true) (hc : c.Inv) : c'.Inv := by
  obtain ⟨hhash, hvalid, hblk, -, n, hn, -, hw⟩ := (ShaState.inv_running hb).mp hc
  cases he with
  | @round m hm x v ht hx hv =>
    obtain rfl : n = m := Option.some.inj (hn.symm.trans ht)
    have hsucc : (n + 1#7).toNat = n.toNat + 1 := by bv_omega
    refine (ShaState.inv_running (c := c.afterRound n hm x _) hb).mpr
      ⟨hhash, hvalid, hblk, isSome_written _, n + 1#7, rfl, by omega, ?_⟩
    rw [hsucc]
    exact isSome_afterRound_w hm x _ hw
  | @final h v =>
    have hadded : (c.afterFinal (addState h v)).HashOk := ShaState.hashOk_written hvalid rfl
    exact (ShaState.inv_idle rfl).mpr ⟨hadded, rfl, rfl, rfl⟩

/-- A running compression has a counter, at most 64. -/
theorem ShaState.exists_counter (hb : c.busy = true) (hc : c.Inv) : ∃ n, c.t = some n ∧ n.toNat ≤ 64 := by
  obtain ⟨-, -, -, -, n, hn, hle, -⟩ := (ShaState.inv_running hb).mp hc
  exact ⟨n, hn, hle⟩

end

/-- Every step keeps the invariant. -/
theorem step_inv (hi : s.Inv) (h : step s = .next t) : t.Inv := by
  obtain ⟨-, hcore⟩ := step_core h
  unfold State.Inv
  generalize t.sha = c at hcore ⊢
  cases hcore with
  | kept => exact hi
  | faulted r => exact (ShaState.inv_setFault r).mpr hi
  | engine hb he => exact he.inv hb hi
  | access hb _ hp => exact hp.inv hb hi

end Sys2Proof.Machine
end

section
/-! SUPPORT. Whose step it is, as an equation per case (00_scope.md R11, log entries 3, 4, 6), and that a live state
has a step. -/

namespace Sys2Proof.Machine

variable {s t : State} {line : HostLine} {rest : List HostLine} {turns : List Agent}

/-! ### Who moves -/

theorem step_idle_nil (hf : s.sha.fault = none) (hb : s.sha.busy = false) (hp : s.pending = []) :
    step s = .next s := by
  simp [step, takeTurn, unlessEnded_live hf, hp, hb]

theorem step_idle_cons (hf : s.sha.fault = none) (hb : s.sha.busy = false) (hp : s.pending = line :: rest) :
    step s = hostStep line { s with pending := rest } := by
  simp [step, takeTurn, unlessEnded_live hf, hp, hb]

theorem step_busy_nil (hf : s.sha.fault = none) (hb : s.sha.busy = true) (hp : s.pending = []) :
    step s = engineStep s := by
  simp [step, takeTurn, unlessEnded_live hf, hp, hb]

theorem step_busy_noTurns (hf : s.sha.fault = none) (hb : s.sha.busy = true) (ht : s.turns = []) :
    step s = engineStep s := by
  cases hp : s.pending with
  | nil => exact step_busy_nil hf hb hp
  | cons line rest => simp [step, takeTurn, unlessEnded_live hf, hp, hb, ht]

theorem step_busy_engine (hf : s.sha.fault = none) (hb : s.sha.busy = true) (hp : s.pending = line :: rest)
    (ht : s.turns = .engine :: turns) : step s = engineStep { s with turns := turns } := by
  simp [step, takeTurn, unlessEnded_live hf, hp, hb, ht]

theorem step_busy_host (hf : s.sha.fault = none) (hb : s.sha.busy = true) (hp : s.pending = line :: rest)
    (ht : s.turns = .host :: turns) : step s = hostStep line { s with pending := rest, turns := turns } := by
  simp [step, takeTurn, unlessEnded_live hf, hp, hb, ht]

/-! ### POLL (30_encoding.md R79, R80) -/

theorem statusBusy_statusWord (c : ShaState) : statusBusy (statusWord c) = c.busy := statusWord_getLsbD_zero c

theorem hostStep_poll_idle (hf : s.sha.fault = none) (hb : s.sha.busy = false) :
    hostStep .poll s =
      .next { s with rdata := some (statusWord s.sha), received := s.received ++ [statusWord s.sha] } := by
  simp [hostStep, hostAccess_of_ok decode_poll, exec_rdStatus _ hf, reply, pollAgain, statusBusy_statusWord, hb]

theorem hostStep_poll_busy (hf : s.sha.fault = none) (hb : s.sha.busy = true) :
    hostStep .poll s =
      .next { s with rdata := some (statusWord s.sha), received := s.received ++ [statusWord s.sha],
                     pending := .poll :: s.pending } := by
  simp [hostStep, hostAccess_of_ok decode_poll, exec_rdStatus _ hf, reply, pollAgain, statusBusy_statusWord, hb]

/-! ### Progress -/

/-- With BUSY = 0 an operation performs its effect or takes a fault of its own rule. -/
theorem exists_exec_idle (i : Instr) (hf : s.sha.fault = none) (hb : s.sha.busy = false) :
    ∃ t, exec i s = .next t := by
  cases i with
  | nop => exact ⟨_, exec_of_performs hf hb (.nop _)⟩
  | init => exact ⟨_, exec_of_performs hf hb (.init _)⟩
  | rdStatus x => exact ⟨_, exec_rdStatus x hf⟩
  | wrBlk j x => exact ⟨_, exec_of_performs hf hb (.wrBlk _ j x)⟩
  | compress =>
    rw [exec, execCompress, unlessBusy_idle hf hb]
    split
    · exact ⟨_, rfl⟩
    · split <;> exact ⟨_, rfl⟩
  | rdBlk j x =>
    rw [exec, execRdBlk, unlessBusy_idle hf hb]
    split <;> exact ⟨_, rfl⟩
  | rdHash k x =>
    rw [exec, execRdHash, unlessBusy_idle hf hb]
    split
    · exact ⟨_, rfl⟩
    · split <;> exact ⟨_, rfl⟩

theorem exists_exec (i : Instr) (hf : s.sha.fault = none) : ∃ t, exec i s = .next t := by
  cases hb : s.sha.busy with
  | false => exact exists_exec_idle i hf hb
  | true =>
    cases i with
    | rdStatus x => exact ⟨_, exec_rdStatus x hf⟩
    | nop | init | compress | wrBlk | rdBlk | rdHash => exact ⟨_, exec_busy hf hb rfl⟩

/-- A host line is performed or takes a fault: it is never refused. -/
theorem exists_hostStep (line : HostLine) (hf : s.sha.fault = none) : ∃ t, hostStep line s = .next t := by
  cases line with
  | tx word =>
    cases hd : decode word with
    | ok i =>
      obtain ⟨t, ht⟩ := exists_exec i hf
      exact ⟨t, (hostAccess_of_ok hd).trans ht⟩
    | error code =>
      obtain ⟨t, ht, -⟩ := hostAccess_of_error hf hd
      exact ⟨t, ht⟩
  | poll =>
    cases hb : s.sha.busy with
    | false => exact ⟨_, hostStep_poll_idle hf hb⟩
    | true => exact ⟨_, hostStep_poll_busy hf hb⟩

/-- In a live state that meets the invariant whoever is to move has a step. -/
theorem exists_step (hi : s.Inv) (hf : s.sha.fault = none) : ∃ t, step s = .next t := by
  cases hb : s.sha.busy with
  | false =>
    cases hp : s.pending with
    | nil => exact ⟨s, step_idle_nil hf hb hp⟩
    | cons line rest =>
      rw [step_idle_cons hf hb hp]
      exact exists_hostStep line hf
  | true =>
    cases hp : s.pending with
    | nil =>
      rw [step_busy_nil hf hb hp]
      exact exists_engineStep hi hf hb
    | cons line rest =>
      cases ht : s.turns with
      | nil =>
        rw [step_busy_noTurns hf hb ht]
        exact exists_engineStep hi hf hb
      | cons agent turns =>
        cases agent with
        | engine =>
          rw [step_busy_engine hf hb hp ht]
          exact exists_engineStep hi hf hb
        | host =>
          rw [step_busy_host hf hb hp ht]
          exact exists_hostStep line hf

/-! ### The work a compression still needs -/

/-- The engine steps left by the counter and the turns left: what no step of a running compression leaves as it is. -/
def remainingWork (s : State) : Nat := s.turns.length + (65 - (s.sha.t.getD 0#7).toNat)

theorem EngineMoves.remaining_lt {c c' : ShaState} (he : EngineMoves c c') (hb : c'.busy = true) :
    65 - (c'.t.getD 0#7).toNat < 65 - (c.t.getD 0#7).toNat := by
  cases he with
  | @round n hn x v ht =>
    have hsucc : (n + 1#7).toNat = n.toNat + 1 := by bv_omega
    simp only [ShaState.afterRound_t, ht, Option.getD_some, hsucc]
    omega
  | final => cases hb

/-- A host line that leaves BUSY = 1 and FAULT empty where BUSY was 1 is a read of STATUS. -/
theorem hostStep_busy_core (hb : s.sha.busy = true) (h : hostStep line s = .next t) (hlive : t.sha.fault = none) :
    t.sha = s.sha := by
  cases line with
  | poll => exact (hostStep_poll_next h).1
  | tx word =>
    obtain hsame | ⟨r, hr⟩ | ⟨hidle, -⟩ := hostAccess_core h
    · exact hsame
    · simp [hr] at hlive
    · simp [hb] at hidle

theorem hostStep_turns (h : hostStep line s = .next t) : t.turns = s.turns := by
  cases line with
  | poll => exact (hostStep_poll_next h).2
  | tx word =>
    obtain ⟨-, ⟨code, rfl⟩ | ⟨i, c, rd, -, -, -, rfl⟩⟩ := hostAccess_next h
    · rfl
    · rfl

theorem engineStep_remainingWork (h : engineStep s = .next t) (hb : t.sha.busy = true) :
    remainingWork t < remainingWork s := by
  obtain ⟨he, hside⟩ := engineMoves_of_engineStep h
  have hturns : t.turns = s.turns := by rw [hside]
  have hless := he.remaining_lt hb
  rw [remainingWork, remainingWork, hturns]
  omega

/-- A step that neither ends the compression nor faults uses up a turn or an engine step. -/
theorem step_remainingWork (hf : s.sha.fault = none) (hb : s.sha.busy = true) (h : step s = .next t)
    (hb' : t.sha.busy = true) (hf' : t.sha.fault = none) : remainingWork t < remainingWork s := by
  cases hp : s.pending with
  | nil => exact engineStep_remainingWork (step_busy_nil hf hb hp ▸ h) hb'
  | cons line rest =>
    cases ht : s.turns with
    | nil => exact engineStep_remainingWork (step_busy_noTurns hf hb ht ▸ h) hb'
    | cons agent turns =>
      have hused : remainingWork { s with turns := turns } < remainingWork s := by
        simp [remainingWork, ht]
      cases agent with
      | engine =>
        rw [step_busy_engine hf hb hp ht] at h
        exact (engineStep_remainingWork h hb').trans hused
      | host =>
        rw [step_busy_host hf hb hp ht] at h
        have hcore := hostStep_busy_core (s := { s with pending := rest, turns := turns }) hb h hf'
        have hturns := hostStep_turns h
        simpa [remainingWork, hcore, hturns] using hused

/-- Within the remaining work BUSY falls or the host's access faults. -/
theorem ends_within_remainingWork (work : Nat) (hi : s.Inv) (hf : s.sha.fault = none) (hb : s.sha.busy = true)
    (hwork : remainingWork s ≤ work) :
    ∃ k u, k ≤ work ∧ core.run k s = .next u ∧ (u.sha.busy = false ∨ u.sha.fault ≠ none) := by
  induction work generalizing s with
  | zero =>
    obtain ⟨n, hn, hle⟩ := ShaState.exists_counter hb hi
    simp only [remainingWork, hn, Option.getD_some] at hwork
    omega
  | succ work ih =>
    obtain ⟨t, hstep⟩ := exists_step hi hf
    by_cases hend : t.sha.busy = false ∨ t.sha.fault ≠ none
    · exact ⟨1, t, by omega, (run_succ core 0 s t hstep).trans (run_zero core t), hend⟩
    · obtain ⟨hb', hf'⟩ : t.sha.busy = true ∧ t.sha.fault = none := by simpa using hend
      have hless := step_remainingWork hf hb hstep hb' hf'
      obtain ⟨k, u, hk, hrun, hu⟩ := ih (step_inv hi hstep) hf' hb' (by omega)
      exact ⟨k + 1, u, by omega, (run_succ core k s t hstep).trans hrun, hu⟩

end Sys2Proof.Machine
end

section
/-! PROOFS. The statements about every step: the invariant, progress, who writes what, and who moves (10_state.md R21,
R22, R27, R28, 42_compression.md R138, R139, R141). -/

namespace Sys2Proof.Machine

/-- Settles O9: the core is kept, faulted, moved by the engine or written by an operation, and each keeps the
invariant. -/
theorem stepKeepsTheInvariant : Obligations.StepKeepsTheInvariant := fun _ _ => step_inv

/-- Settles O10: whoever is to move has a step, the engine by the invariant and the host from any live state. -/
theorem liveStateHasAStep : Obligations.LiveStateHasAStep := fun _ => exists_step

/-- Settles O44: every step that neither ends the compression nor faults uses up a turn or an engine step. -/
theorem compressionEndsOrFaults : Obligations.CompressionEndsOrFaults := by
  intro s hi hf hb
  obtain ⟨k, u, hk, hrun, hu⟩ := ends_within_remainingWork _ hi hf hb le_rfl
  have hbound : remainingWork s ≤ s.turns.length + 65 := by
    rw [remainingWork]
    omega
  exact ⟨k, u, hk.trans hbound, hrun, hu⟩

theorem encode_init : encode .init = 0x60000000001#43 := by decide

theorem encode_compress : encode .compress = 0x60000000002#43 := by decide

/-- Settles O25: of all a step can do to the core, only INIT's effect and the final step write HASH. -/
theorem onlyInitAndFinalStepWriteHash : Obligations.OnlyInitAndFinalStepWriteHash := by
  intro s t h hne
  obtain ⟨-, hcore⟩ := step_core h
  generalize t.sha = c at hcore hne ⊢
  cases hcore with
  | kept | faulted r => exact absurd rfl hne
  | engine hb he =>
    cases he with
    | round => exact absurd rfl hne
    | final ht => exact .inr ⟨hb, ht, rfl⟩
  | @access i _ _ rest hb hp hperf =>
    cases hperf with
    | nop | compress | rdStatus | wrBlk | rdBlk | rdHash => exact absurd rfl hne
    | init => exact .inl ⟨hb, rest, encode_init ▸ hp⟩

/-- Settles O26: only INIT's effect writes HVALID, and it writes 1. -/
theorem onlyInitSetsHvalid : Obligations.OnlyInitSetsHvalid := by
  intro s t h hne
  obtain ⟨-, hcore⟩ := step_core h
  generalize t.sha = c at hcore hne ⊢
  cases hcore with
  | kept | faulted r => exact absurd rfl hne
  | engine hb he => cases he <;> exact absurd rfl hne
  | @access i _ _ rest hb hp hperf =>
    cases hperf with
    | nop | compress | rdStatus | wrBlk | rdBlk | rdHash => exact absurd rfl hne
    | init => exact ⟨by simpa using hne.symm, hb, rest, encode_init ▸ hp⟩

/-- Settles O27: only the accept step and the final step write BUSY. -/
theorem onlyAcceptAndFinalStepWriteBusy : Obligations.OnlyAcceptAndFinalStepWriteBusy := by
  intro s t h hne
  obtain ⟨-, hcore⟩ := step_core h
  generalize t.sha = c at hcore hne ⊢
  cases hcore with
  | kept | faulted r => exact absurd rfl hne
  | engine hb he =>
    cases he with
    | round => exact absurd rfl hne
    | final ht => exact .inr ⟨hb, ht, rfl⟩
  | @access i _ _ rest hb hp hperf =>
    cases hperf with
    | nop | init | rdStatus | wrBlk | rdBlk | rdHash => exact absurd rfl hne
    | compress => exact .inl ⟨hb, rfl, rest, encode_compress ▸ hp⟩

/-- Settles O28: a round step has a counter below 64, the final step has 64, and an accept step finds none, since the
core is idle. -/
theorem counterAdvancesByOne : Obligations.CounterAdvancesByOne := by
  intro s t hi h
  obtain ⟨-, hcore⟩ := step_core h
  generalize t.sha = c at hcore ⊢
  cases hcore with
  | kept | faulted r => exact .inl rfl
  | engine hb he =>
    cases he with
    | @round n hn _ _ ht =>
      have hsucc : (n + 1#7).toNat = n.toNat + 1 := by bv_omega
      exact .inr (.inr (.inl ⟨n, n + 1#7, ht, rfl, by omega, hsucc⟩))
    | final ht => exact .inr (.inr (.inr ⟨ht, rfl⟩))
  | access hb _ hperf =>
    obtain ⟨-, ht, -⟩ := (ShaState.inv_idle hb).mp hi
    cases hperf with
    | nop | init | rdStatus | wrBlk | rdBlk | rdHash => exact .inl rfl
    | compress => exact .inr (.inl ⟨ht, rfl⟩)

/-- Settles O29: with BUSY = 1 the core is kept, faulted or moved by a round step, and none of these writes HASH, BLK
or HVALID. -/
theorem isolationDuringACompression : Obligations.IsolationDuringACompression := by
  intro s t hi hb h hb'
  obtain ⟨-, hvalid, hblk, -⟩ := (ShaState.inv_running hb).mp hi
  have hconsumed : ∀ j : Fin 16, s.sha.blk[j] = none := fun j => hblk ▸ unwritten_get j.val j.isLt
  obtain ⟨-, hcore⟩ := step_core h
  generalize t.sha = c at hcore hb' ⊢
  cases hcore with
  | kept | faulted r => exact ⟨rfl, hconsumed, hvalid⟩
  | engine _ he =>
    cases he with
    | round => exact ⟨rfl, hconsumed, hvalid⟩
    | final => cases hb'
  | access hidle => simp [hb] at hidle

/-- Settles O12: each guard answers with the record. -/
theorem endedRunHasNoStep : Obligations.EndedRunHasNoStep := fun _ _ h =>
  ⟨step_ended h, engineStep_ended h, fun i => exec_ended i h⟩

/-- Settles O37: the host's step issues its line, and the access runs what the word decodes to. -/
theorem stepRunsTheDecodedOperation : Obligations.StepRunsTheDecodedOperation := fun _ _ _ _ hf hp hd =>
  ⟨fun hb => (step_idle_cons hf hb hp).trans (hostAccess_of_ok hd),
    fun _ hb ht => (step_busy_host hf hb hp ht).trans (hostAccess_of_ok hd)⟩

/-- R203's code while BUSY = 1, by the number of the test that failed. -/
theorem codeWithBusy_busy (code : FaultCode) :
    codeWithBusy true code = if code.number < 4 then code else .busyAccess := by
  cases code <;> rfl

/-- Settles O38: the host's step issues its line, and the access takes the decode fault. -/
theorem stepTakesADecodeFault : Obligations.StepTakesADecodeFault := by
  intro s w rest code hf hp hd
  refine ⟨fun hb => ?_, fun hb ⟨turns, ht⟩ => ?_⟩
  · have hfault := hostAccess_of_error (s := { s with pending := rest }) hf hd
    rw [step_idle_cons hf hb hp]
    rwa [show codeWithBusy s.sha.busy code = code by simp [codeWithBusy, hb]] at hfault
  · have hfault := hostAccess_of_error (s := { s with pending := rest, turns := turns }) hf hd
    rw [step_busy_host hf hb hp ht]
    rwa [show codeWithBusy s.sha.busy code = _ from hb ▸ codeWithBusy_busy code] at hfault

/-- Settles O39: the equations of a step in which the host does not move. -/
theorem stepMovesTheEngine : Obligations.StepMovesTheEngine := by
  refine fun s hf => ⟨fun hb => ⟨step_busy_nil hf hb, step_busy_noTurns hf hb, fun turns hp ht => ?_⟩,
    step_idle_nil hf⟩
  obtain ⟨line, rest, hp⟩ := List.exists_cons_of_ne_nil hp
  exact step_busy_engine hf hb hp ht

/-- Settles O40: POLL's read of STATUS finds BUSY in bit 0, and the line goes back while it is 1. -/
theorem pollRepeatsWhileBusy : Obligations.PollRepeatsWhileBusy := fun _ _ hf hp =>
  ⟨fun hb => ⟨_, (step_idle_cons hf hb hp).trans (hostStep_poll_idle hf hb), rfl, rfl, rfl, rfl⟩,
    fun _ hb ht => ⟨_, (step_busy_host hf hb hp ht).trans (hostStep_poll_busy hf hb), rfl, rfl, rfl, rfl, rfl⟩⟩

theorem decode_of_decodeTableWord {nbits w : Nat} {i : Instr} (h : decodeTableWord nbits w = some i) :
    decode (BitVec.ofNat 43 (w % 2 ^ nbits)) = .ok i := by
  unfold decodeTableWord at h
  split at h
  · cases hd : decode (BitVec.ofNat 43 (w % 2 ^ nbits)) with
    | ok i' => simpa [hd, Except.toOption] using h
    | error code => simp [hd, Except.toOption] at h
  · cases h

/-- Settles O41: the word is what the host issues next, and the turn is the host's. -/
theorem fetchWordRunsTheOperation : Obligations.FetchWordRunsTheOperation := by
  intro s nbits w i hf h
  have hd := decode_of_decodeTableWord h
  cases hb : s.sha.busy with
  | false =>
    have hstep := step_idle_cons (s := s.withFetchWord nbits w) hf hb rfl
    rw [hstep, hostStep, hostAccess_of_ok hd]
    simp [State.withFetchWord, hb]
  | true =>
    have hturns : (s.withFetchWord nbits w).turns = .host :: s.turns := by simp [State.withFetchWord, hb]
    have hstep := step_busy_host (s := s.withFetchWord nbits w) hf hb rfl hturns
    rw [hstep, hostStep, hostAccess_of_ok hd]
    rfl

/-- Settles O23: an access that answers a next state took a fault or performed an effect, and neither touches the
host's side but for the RDATA kept. -/
theorem execKeepsTheHostsSide : Obligations.ExecKeepsTheHostsSide := by
  refine ⟨fun i s t h => ?_, fun tx s t h => ?_, fun s t h => (engineMoves_of_engineStep h).2⟩
  · obtain ⟨-, ⟨code, rfl⟩ | ⟨-, c, rd, -, rfl⟩⟩ := exec_next h
    · exact ⟨rfl, rfl, (List.append_nil _).symm⟩
    · exact ⟨rfl, rfl, rfl⟩
  · obtain ⟨-, ⟨code, rfl⟩ | ⟨i, c, rd, -, -, -, rfl⟩⟩ := hostAccess_next h
    · exact ⟨rfl, rfl, (List.append_nil _).symm⟩
    · exact ⟨rfl, rfl, rfl⟩

/-- Settles O42: a read of STATUS leaves the core as it was, so the engine moves it the same way before and after. -/
theorem statusReadCommutesWithTheEngine : Obligations.StatusReadCommutesWithTheEngine := by
  intro s x hi hf hb
  obtain ⟨c, hc⟩ := exists_engineStep hi hf hb
  have hlive : c.sha.fault = none := (engineStep_fault hc).trans hf
  obtain ⟨hafter, -⟩ := engineStep_same_core hc
    (s' := { s with rdata := some (statusWord s.sha), received := s.received ++ [statusWord s.sha] }) rfl
  exact ⟨_, _, c, _, exec_rdStatus x hf, hafter, hc, exec_rdStatus x hlive, rfl⟩

end Sys2Proof.Machine
end

section
/-! SUPPORT. The core after the accept step and n round steps, as one value, and that a round step leads from each such
core to the next and the final step from the last to Compress (41_schedule.md R121-R123, 42_compression.md R131, R133,
R134). -/

namespace Sys2Proof.Machine

/-! ### The schedule (41_schedule.md R121, R123) -/

section
variable (m : Vector Word 16)

/-- A word of the schedule stands as soon as it is expanded. -/
theorem schedule_eq_scheduleUpTo (n j : Nat) (hj : j < 64) (hn : n ≤ 48) (hjn : j < 16 + n) :
    (schedule m)[j] = (scheduleUpTo m n)[j] := by
  have hkept := scheduleUpTo_prefix m n j hj hjn (48 - n)
  rwa [Nat.add_sub_cancel' hn] at hkept

theorem schedule_loaded (j : Nat) (hj : j < 16) : (schedule m)[j] = m[j] := by
  rw [schedule_eq_scheduleUpTo m 0 j (by omega) (by omega) (by omega)]
  simp [scheduleUpTo, hj]

theorem schedule_expanded (j : Nat) (hj : j < 64) (h16 : 16 ≤ j) :
    (schedule m)[j] = expandWord (schedule m)[j - 2] (schedule m)[j - 7] (schedule m)[j - 15] (schedule m)[j - 16] := by
  obtain ⟨n, rfl⟩ := Nat.exists_eq_add_of_le h16
  have hearlier : ∀ d (hd : 1 ≤ d ∧ d ≤ 16), (schedule m)[16 + n - d] = (scheduleUpTo m n)[16 + n - d] := fun d hd =>
    schedule_eq_scheduleUpTo m n _ (by omega) (by omega) (by omega)
  rw [schedule_eq_scheduleUpTo m (n + 1) _ hj (by omega) (by omega), hearlier 2 (by decide), hearlier 7 (by decide),
    hearlier 15 (by decide), hearlier 16 (by decide)]
  simp only [scheduleUpTo_succ m n hj, Vector.getElem_set_self]

end

/-! ### The core after n rounds -/

/-- The core of a compression of block `m` from `h` after `n` rounds, where `c` is the core its accept step left. -/
def ShaState.afterRounds (c : ShaState) (h : Vector Word 8) (m : Vector Word 16) (n : Nat) : ShaState :=
  { c with
    v := written (roundsUpTo (schedule m) h n)
    w := Vector.ofFn fun j => if j.val < 16 ∨ j.val < n then some (schedule m)[j] else c.w[j]
    t := some (BitVec.ofNat 7 n) }

section
variable (c : ShaState) (h : Vector Word 8) (m : Vector Word 16) (n : Nat)

theorem ShaState.afterRounds_w (j : Nat) (hj : j < 64) :
    (c.afterRounds h m n).w[j] = if j < 16 ∨ j < n then some (schedule m)[j] else c.w[j] := by
  simp [ShaState.afterRounds]

/-- Right after the accept step no round has been done. -/
theorem ShaState.accept_eq_afterRounds (hh : c.hash = written h) (hm : c.blk = written m) :
    c.accept = c.accept.afterRounds h m 0 := by
  have hw : c.accept.w = (c.accept.afterRounds h m 0).w := by
    ext j hj : 1
    rw [ShaState.afterRounds_w]
    split
    next hlow =>
      have hlow : j < 16 := by omega
      rw [ShaState.accept_w, loadSchedule_get_low _ _ _ hlow, hm, written_get, schedule_loaded m j hlow]
    next => rfl
  have hv : c.accept.v = (c.accept.afterRounds h m 0).v := hh
  exact (ShaState.mk.injEq ..).mpr ⟨rfl, rfl, hv, hw, rfl, rfl, rfl, rfl⟩

/-- After n rounds the next round step reads W[n] of the schedule. -/
theorem scheduleWord_afterRounds (hn : n < 64) :
    scheduleWord (c.afterRounds h m n).w ⟨n, hn⟩ = some (schedule m)[n] := by
  by_cases hlow : n < 16
  · rw [scheduleWord_loaded hlow]
    exact (ShaState.afterRounds_w c h m n n hn).trans (if_pos (.inl hlow))
  · have h16 : 16 ≤ n := Nat.not_lt.mp hlow
    have hread : ∀ d (hd : 1 ≤ d ∧ d ≤ 16), (c.afterRounds h m n).w[n - d] = some (schedule m)[n - d] := fun d hd =>
      (ShaState.afterRounds_w c h m n (n - d) (by omega)).trans (if_pos (.inr (by omega)))
    rw [schedule_expanded m n hn h16]
    exact scheduleWord_expanded h16 (hread 2 (by decide)) (hread 7 (by decide)) (hread 15 (by decide))
      (hread 16 (by decide))

theorem toNat_counter (hn : n < 64) : (BitVec.ofNat 7 n).toNat = n := by
  rw [BitVec.toNat_ofNat]
  omega

/-- Round step n's update of the core after n rounds gives the core after n + 1. -/
theorem ShaState.afterRound_afterRounds (hn : n < 64) (hc : (BitVec.ofNat 7 n).toNat < 64) :
    (c.afterRounds h m n).afterRound (BitVec.ofNat 7 n) hc (schedule m)[n]
        (sha256Round ⟨n, hn⟩ (roundsUpTo (schedule m) h n) (schedule m)[n]) =
      c.afterRounds h m (n + 1) := by
  have hcount : (BitVec.ofNat 7 n).toNat = n := toNat_counter n hn
  have hv : written (sha256Round ⟨n, hn⟩ (roundsUpTo (schedule m) h n) (schedule m)[n]) =
      (c.afterRounds h m (n + 1)).v := congrArg written (roundsUpTo_succ (schedule m) h n hn).symm
  have ht : some (BitVec.ofNat 7 n + 1#7) = (c.afterRounds h m (n + 1)).t :=
    congrArg some (BitVec.ofNat_add n 1).symm
  have hw : ((c.afterRounds h m n).afterRound (BitVec.ofNat 7 n) hc (schedule m)[n]
      (sha256Round ⟨n, hn⟩ (roundsUpTo (schedule m) h n) (schedule m)[n])).w = (c.afterRounds h m (n + 1)).w := by
    ext j hj : 1
    rw [ShaState.afterRound_w_get, ShaState.afterRounds_w, ShaState.afterRounds_w, hcount]
    by_cases hjn : j = n
    · subst hjn
      by_cases hlow : j < 16
      · simp [hlow]
      · simp [Nat.not_lt.mp hlow]
    · have hsame : j < 16 ∨ j < n ↔ j < 16 ∨ j < n + 1 := by omega
      simp [hjn, hsame]
  exact (ShaState.mk.injEq ..).mpr ⟨rfl, rfl, hv, hw, rfl, ht, rfl, rfl⟩

end

/-! ### Runs of the engine -/

section
variable {s : State} {c : ShaState} {h : Vector Word 8} {m : Vector Word 16} {n : Nat}

theorem engineStep_afterRounds (hf : c.fault = none) (hn : n < 64) (hs : s.sha = c.afterRounds h m n) :
    engineStep s = .next { s with sha := c.afterRounds h m (n + 1) } := by
  have hcount : (BitVec.ofNat 7 n).toNat = n := toNat_counter n hn
  have hlt : (BitVec.ofNat 7 n).toNat < 64 := hcount.trans_lt hn
  have hfin : (⟨(BitVec.ofNat 7 n).toNat, hlt⟩ : Fin 64) = ⟨n, hn⟩ := Fin.ext hcount
  have hstep := engineStep_round (s := s) hlt (by rw [hs]; exact hf) (by rw [hs]; rfl)
    (by rw [hfin, hs, scheduleWord_afterRounds c h m n hn]) (by rw [hs]; rfl)
  rw [hstep, hs, hfin, ShaState.afterRound_afterRounds c h m n hn hlt]

theorem engineSteps_afterRounds (hf : c.fault = none) (hs : s.sha = c.afterRounds h m 0) (hn : n ≤ 64) :
    engineSteps n s = .next { s with sha := c.afterRounds h m n } := by
  induction n with
  | zero => rw [engineSteps, ← hs]
  | succ n ih => rw [engineSteps_succ n _ _ (ih (by omega)), engineStep_afterRounds hf hn rfl]

/-- The 65 engine steps after the accept step: 64 rounds and the final step, which leave Compress (R131, R134). -/
theorem engineSteps_compress (hf : c.fault = none) (hh : c.hash = written h) (hs : s.sha = c.afterRounds h m 0) :
    engineSteps 65 s = .next { s with sha := c.afterFinal (compress h m) } := by
  rw [engineSteps_succ 64 _ _ (engineSteps_afterRounds hf hs le_rfl)]
  exact engineStep_final (h := h) (v := roundsUpTo (schedule m) h 64) hf rfl hh rfl

end

end Sys2Proof.Machine
end

section
/-! SUPPORT. One block through an idle core with a valid HASH: BLK written, accepted and compressed, which leaves an
idle core with the next chaining value (42_compression.md R132, R136). -/

namespace Sys2Proof.Machine

/-- A core of a run that goes on, idle, with HVALID = 1 and HASH = h. -/
structure ShaState.Ready (c : ShaState) (h : Vector Word 8) : Prop where
  live : c.fault = none
  idle : c.busy = false
  valid : c.hvalid = true
  hash_eq : c.hash = written h

/-- The core after block writes of `m` to the indices listed. -/
def ShaState.writeBlk (c : ShaState) (m : Vector Word 16) : List (Fin 16) → ShaState
  | [] => c
  | j :: js => (c.setBlk j m[j]).writeBlk m js

section
variable {c : ShaState} {h : Vector Word 8} {m : Vector Word 16} {s : State}

theorem ShaState.writeBlk_eq (js : List (Fin 16)) : c.writeBlk m js = { c with blk := (c.writeBlk m js).blk } := by
  induction js generalizing c with
  | nil => rfl
  | cons j js ih =>
    rw [ShaState.writeBlk, ih]
    rfl

theorem ShaState.writeBlk_get (js : List (Fin 16)) (k : Fin 16) :
    (c.writeBlk m js).blk[k] = if k ∈ js then some m[k] else c.blk[k] := by
  induction js generalizing c with
  | nil => rfl
  | cons j js ih =>
    rw [ShaState.writeBlk, ih]
    by_cases hk : k = j
    · simp [hk]
    · have hother : j.val ≠ k.val := fun h => hk (Fin.ext h.symm)
      simp [hk, Vector.getElem_set_ne _ _ hother]

/-- Sixteen writes, one to each index, replace BLK by the block. -/
theorem ShaState.writeBlk_all : c.writeBlk m (List.finRange 16) = { c with blk := written m } := by
  have hblk : (c.writeBlk m (List.finRange 16)).blk = written m :=
    eq_written_of_get fun j => (ShaState.writeBlk_get _ j).trans (if_pos (List.mem_finRange j))
  rw [ShaState.writeBlk_eq, hblk]

/-- INIT makes an idle core ready with H0. -/
theorem ShaState.ready_loadH0 (hf : c.fault = none) (hb : c.busy = false) : c.loadH0.Ready H0 := ⟨hf, hb, rfl, rfl⟩

/-- The core a compression of block `m` leaves, where `c` is ready with `h`. -/
def ShaState.afterBlock (c : ShaState) (h : Vector Word 8) (m : Vector Word 16) : ShaState :=
  ShaState.afterFinal { c with blk := written m }.accept (compress h m)

theorem ShaState.Ready.afterBlock (hc : c.Ready h) (m : Vector Word 16) : (c.afterBlock h m).Ready (compress h m) :=
  ⟨hc.live, rfl, hc.valid, rfl⟩

theorem written_ne_none (m : Vector Word 16) (j : Fin 16) : (written m)[j] ≠ none := by
  simp

/-- COMPRESS is accepted where HVALID = 1 and BLK holds a block. -/
theorem performs_compress (hv : c.hvalid = true) (hm : c.blk = written m) : Performs .compress c c.accept none :=
  .compress c hv fun j => hm ▸ written_ne_none m j

theorem exec_init_ready (hf : s.sha.fault = none) (hb : s.sha.busy = false) :
    ∃ t, exec .init s = .next t ∧ t.sha.Ready H0 :=
  ⟨_, exec_of_performs hf hb (.init s.sha), ShaState.ready_loadH0 hf hb⟩

theorem exec_compress_accepts (hf : s.sha.fault = none) (hb : s.sha.busy = false) (hv : s.sha.hvalid = true)
    (hm : s.sha.blk = written m) :
    ∃ t, exec .compress s = .next t ∧ t.sha = s.sha.accept :=
  ⟨_, exec_of_performs hf hb (performs_compress hv hm), rfl⟩

/-- COMPRESS and its 65 engine steps. -/
theorem exec_compress_engineSteps (hf : s.sha.fault = none) (hb : s.sha.busy = false) (hv : s.sha.hvalid = true)
    (hh : s.sha.hash = written h) (hm : s.sha.blk = written m) :
    ∃ t, exec .compress s = .next t ∧
      engineSteps 65 t = .next { t with sha := s.sha.accept.afterFinal (compress h m) } := by
  obtain ⟨t, ht, hsha⟩ := exec_compress_accepts hf hb hv hm
  exact ⟨t, ht, engineSteps_compress (c := s.sha.accept) hf hh (hsha.trans (s.sha.accept_eq_afterRounds h m hh hm))⟩

theorem writeBlock_next (hf : s.sha.fault = none) (hb : s.sha.busy = false) (js : List (Fin 16)) :
    ∃ t, writeBlock m js s = .next t ∧ t.sha = s.sha.writeBlk m js := by
  induction js generalizing s with
  | nil => exact ⟨s, rfl, rfl⟩
  | cons j js ih =>
    have hwrite := exec_of_performs hf hb (.wrBlk s.sha j m[j])
    rw [writeBlock, hwrite]
    exact ih hf hb

theorem submitBlock_next (hs : s.sha.Ready h) (m : Vector Word 16) :
    ∃ u, submitBlock m s = .next u ∧ u.sha = s.sha.afterBlock h m := by
  obtain ⟨t, ht, hblk⟩ := writeBlock_next (m := m) hs.live hs.idle (List.finRange 16)
  rw [ShaState.writeBlk_all] at hblk
  obtain ⟨u, hu, hend⟩ := exec_compress_engineSteps (s := t) (h := h) (m := m) (hblk ▸ hs.live) (hblk ▸ hs.idle)
    (hblk ▸ hs.valid) (hblk ▸ hs.hash_eq) (hblk ▸ rfl)
  have hblock : submitBlock m s = .next { u with sha := t.sha.accept.afterFinal (compress h m) } := by
    simp only [submitBlock, ht, hu, hend]
  exact ⟨_, hblock, by rw [hblk, ShaState.afterBlock]⟩

/-- Blocks through the core one after another chain (42_compression.md R132). -/
theorem submitBlocks_chain (blocks : List (Vector Word 16)) (hs : s.sha.Ready h) :
    ∃ u, submitBlocks blocks s = .next u ∧ u.sha.Ready (chain h blocks) := by
  induction blocks generalizing s h with
  | nil => exact ⟨s, rfl, hs⟩
  | cons m rest ih =>
    obtain ⟨t, ht, hsha⟩ := submitBlock_next hs m
    rw [submitBlocks, ht]
    exact ih (hsha ▸ hs.afterBlock m)

end

end Sys2Proof.Machine
end

section
/-! PROOFS. The statements about COMPRESS and the engine's steps (41_schedule.md R121, R123, 42_compression.md
R131-R136, 43_commands.md R153). -/

namespace Sys2Proof.Machine

/-- Settles O36: a word of the schedule stands from the step that expands it, which is the recurrence. -/
theorem scheduleRecurrence : Obligations.ScheduleRecurrence := fun m t =>
  ⟨fun hlow => schedule_loaded m t.val hlow,
    fun h16 => (schedule_expanded m t.val t.isLt h16).trans (expandWord_eq ..)⟩

/-- Settles O33: the accept step starts the rounds, and k round steps leave the core after k rounds. -/
theorem engineAfterKRounds : Obligations.EngineAfterKRounds := by
  intro s h m k hi hf hb hv hhash hblk hk
  have hh := eq_written_of_get hhash
  have hm := eq_written_of_get hblk
  obtain ⟨-, -, -, hw⟩ := (ShaState.inv_idle hb).mp hi
  obtain ⟨t, ht, hsha⟩ := exec_compress_accepts hf hb hv hm
  have hrounds := engineSteps_afterRounds (c := s.sha.accept) hf (hsha.trans (s.sha.accept_eq_afterRounds h m hh hm)) hk
  refine ⟨t, _, ht, hrounds, rfl, fun i => written_get _ i.val i.isLt, fun j => ?_, rfl,
    fun j => unwritten_get j.val j.isLt, rfl, hv⟩
  refine (ShaState.afterRounds_w s.sha.accept h m k j.val j.isLt).trans ?_
  split
  next => rfl
  next hhigh =>
    rw [ShaState.accept_w, loadSchedule_get_high _ _ _ j.isLt (by omega), hw]
    exact unwritten_get j.val j.isLt

/-- Settles O34: 64 round steps compute the rounds of Compress on the schedule of BLK, and the final step adds HASH. -/
theorem compressionIsCompress : Obligations.CompressionIsCompress := by
  intro s h m hf hb hv hhash hblk
  obtain ⟨t, ht, hend⟩ := exec_compress_engineSteps hf hb hv (eq_written_of_get hhash) (eq_written_of_get hblk)
  exact ⟨t, _, ht, hend, rfl⟩

/-- Settles O35: INIT makes the core ready with H0, and each block leaves it ready with the next chaining value. -/
theorem submittedBlocksChain : Obligations.SubmittedBlocksChain := by
  intro s blocks hf hb
  obtain ⟨t, ht, hinit⟩ := exec_init_ready hf hb
  obtain ⟨u, hu, hready⟩ := submitBlocks_chain blocks hinit
  exact ⟨t, u, ht, hu, hready.live, hready.idle, hready.valid, fun i => hready.hash_eq ▸ written_get _ i.val i.isLt⟩

/-- Settles O15: BUSY, HVALID and BLK are tested in this order, and the accept step copies BLK and HASH. -/
theorem compressAcceptsABlock : Obligations.CompressAcceptsABlock := by
  intro s hf
  refine ⟨fun hb => takesFault_exec_busy hf hb rfl (by decide) (by decide), fun hb hv => ?_, fun hb hv hnone => ?_,
    fun m hb hv hblk => ?_⟩
  · have hexec : exec .compress s = raiseBy .compress .hashNotValid s := (unlessBusy_idle hf hb).trans (if_pos hv)
    exact hexec ▸ takesFault_raiseBy (by decide) (by decide)
  · have hexec : exec .compress s = raiseBy .compress .blockNotWritten s :=
      (unlessBusy_idle hf hb).trans ((if_neg (by simp [hv])).trans (if_pos hnone))
    exact hexec ▸ takesFault_raiseBy (by decide) (by decide)
  · have hm := eq_written_of_get hblk
    obtain ⟨t, ht, hsha⟩ := exec_compress_accepts hf hb hv hm
    refine ⟨t, ht, hsha.trans ?_⟩
    simp [ShaState.accept, hm, loadSchedule, unwritten]

/-- Settles O32: the final step adds word by word, and the invariant of a running core gives the corner case. -/
theorem finalStepEffect : Obligations.FinalStepEffect := by
  intro s h v hf hb ht hhash hv
  have hstep := engineStep_final hf ht (eq_written_of_get hhash) (eq_written_of_get hv)
  refine ⟨_, hstep, ?_, fun hi => ?_⟩
  · simp [ShaState.afterFinal, addState, written, unwritten, add32_eq]
  · obtain ⟨-, hvalid, hblk, -⟩ := (ShaState.inv_running hb).mp hi
    exact ⟨hvalid, fun j => hblk ▸ unwritten_get j.val j.isLt⟩

end Sys2Proof.Machine
end

section
/-! SUPPORT. Runs of the machine under any turns, with their cost: a bound on the steps that are no repeated read of
STATUS, one more for each turn used. The host's lines are then followed one after another (30_encoding.md R79,
44_host_procedure.md R177, log entry 4). -/

namespace Sys2Proof.Machine

variable {s t u e : State} {a b : Nat} {rest : List HostLine}

/-! ### Runs with their cost -/

/-- From `s` the machine comes to `u` in at most `n` steps and one for each turn used on the way. -/
def Reaches (n : Nat) (s u : State) : Prop :=
  ∃ k, k + u.turns.length ≤ n + s.turns.length ∧ core.run k s = .next u

theorem Reaches.refl (s : State) : Reaches 0 s s := ⟨0, le_rfl, run_zero core s⟩

theorem Reaches.trans (h : Reaches a s t) (h' : Reaches b t u) : Reaches (a + b) s u := by
  obtain ⟨k, hk, hrun⟩ := h
  obtain ⟨l, hl, hrun'⟩ := h'
  exact ⟨k + l, by omega, (run_add core k l s t hrun).trans hrun'⟩

theorem Reaches.mono (h : Reaches a s u) (hab : a ≤ b) : Reaches b s u := by
  obtain ⟨k, hk, hrun⟩ := h
  exact ⟨k, by omega, hrun⟩

theorem run_one (h : step s = .next t) : core.run 1 s = .next t := (run_succ core 0 s t h).trans (run_zero core t)

/-- A step that uses no turn. -/
theorem reaches_step (h : step s = .next t) (ht : t.turns = s.turns) : Reaches 1 s t :=
  ⟨1, by rw [ht], run_one h⟩

/-- A step that uses a turn is paid for by it. -/
theorem reaches_turn {agent : Agent} (h : step s = .next t) (ht : s.turns = agent :: t.turns) : Reaches 0 s t :=
  ⟨1, by simp [ht, Nat.add_comm], run_one h⟩

/-- What every step keeps, every run keeps. -/
theorem run_keeps (M : Host.Core) {P : M.State → Prop} (hstep : ∀ s t, P s → M.step s = .next t → P t) (k : Nat)
    (s u : M.State) (hs : P s) (h : M.run k s = .next u) : P u := by
  induction k generalizing s with
  | zero =>
    cases h
    exact hs
  | succ k ih =>
    rw [Host.Core.run] at h
    split at h
    next t ht => exact ih t (hstep s t hs ht) h
    next => cases h
    next => cases h

theorem Reaches.inv (h : Reaches a s u) (hi : s.Inv) : u.Inv := by
  obtain ⟨k, -, hrun⟩ := h
  exact run_keeps core (P := State.Inv) (fun _ _ => step_inv) k s u hi hrun

/-- A machine that has ended successfully stays as it is. -/
theorem run_ended (hu : u.successfulEnd) (k : Nat) : core.run k u = .next u := by
  obtain ⟨hf, hb, hp⟩ := hu
  induction k with
  | zero => exact run_zero core u
  | succ k ih => exact (run_succ core k u u (step_idle_nil hf hb hp)).trans ih

/-- A run that ends successfully within its cost may be given all of that cost. -/
theorem Reaches.run_eq (h : Reaches a s u) (hu : u.successfulEnd) : core.run (a + s.turns.length) s = .next u := by
  obtain ⟨k, hk, hrun⟩ := h
  have hsplit : a + s.turns.length = k + (a + s.turns.length - k) := by omega
  rw [hsplit]
  exact (run_add core k _ s u hrun).trans (run_ended hu _)

/-! ### One operation of an idle core -/

/-- The host's next line is an operation's word, and the core performs it. -/
theorem reaches_op {i : Instr} {c : ShaState} {rd : Option Word} (hf : s.sha.fault = none) (hb : s.sha.busy = false)
    (hp : s.pending = .tx (encode i) :: rest) (hperf : Performs i s.sha c rd) :
    ∃ t, Reaches 1 s t ∧ t.sha = c ∧ t.pending = rest ∧ t.received = s.received ++ rd.toList := by
  have hstep := (stepRunsTheDecodedOperation s _ rest i hf hp (decode_encode i)).1 hb
  rw [exec_of_performs (s := { s with pending := rest }) hf hb hperf] at hstep
  exact ⟨_, reaches_step hstep rfl, rfl, rfl, rfl⟩

/-! ### POLL -/

theorem engineSteps_cons (k : Nat) (h : engineStep s = .next t) : engineSteps (k + 1) s = engineSteps k t := by
  rw [engineSteps, h]

theorem exists_first_engineStep {k : Nat} (h : engineSteps (k + 1) s = .next e) :
    ∃ t, engineStep s = .next t ∧ engineSteps k t = .next e := by
  rw [engineSteps] at h
  split at h
  next t ht => exact ⟨t, ht, h⟩
  next => cases h
  next => cases h

/-- Engine steps on end read and write the core only. -/
theorem engineSteps_same_core {k : Nat} (h : engineSteps k s = .next e) (hu : u.sha = s.sha) :
    engineSteps k u = .next { u with sha := e.sha } := by
  induction k generalizing s u with
  | zero =>
    cases h
    rw [engineSteps, ← hu]
  | succ k ih =>
    obtain ⟨t, ht, hrest⟩ := exists_first_engineStep h
    rw [engineSteps_cons k (engineStep_same_core ht hu).1]
    exact ih hrest rfl

/-- The engine has a step from states that meet the invariant only while BUSY = 1. -/
theorem busy_of_engineStep (hi : s.Inv) (h : engineStep s = .next t) : s.sha.busy = true := by
  by_contra hb
  obtain ⟨-, hnone, -⟩ := (ShaState.inv_idle (Bool.not_eq_true _ ▸ hb)).mp hi
  obtain ⟨he, -⟩ := engineMoves_of_engineStep h
  generalize t.sha = c at he
  cases he with
  | round _ ht => simp [hnone] at ht
  | final ht => simp [hnone] at ht

/-- Before POLL, with BUSY = 1, the host reads STATUS as often as the turns say, and then the engine moves. -/
theorem reaches_engineStep (hf : s.sha.fault = none) (hb : s.sha.busy = true) (hp : s.pending = .poll :: rest)
    (he : engineStep s = .next t) :
    ∃ u, Reaches 1 s u ∧ u.sha = t.sha ∧ u.pending = .poll :: rest := by
  induction hturns : s.turns generalizing s t with
  | nil =>
    have hside := (engineMoves_of_engineStep he).2
    exact ⟨t, reaches_step ((step_busy_noTurns hf hb hturns).trans he) (by rw [hside]), rfl, by rw [hside]; exact hp⟩
  | cons agent turns ih =>
    cases agent with
    | engine =>
      have hmove := (engineStep_same_core he (s' := { s with turns := turns }) rfl).1
      exact ⟨_, (reaches_turn ((step_busy_engine hf hb hp hturns).trans hmove) hturns).mono (by decide), rfl, hp⟩
    | host =>
      obtain ⟨r, hread, hsame, -, hagain, hleft, -⟩ := (pollRepeatsWhileBusy s rest hf hp).2 turns hb hturns
      obtain ⟨u, hu, hsha, hpoll⟩ := ih (hsame ▸ hf) (hsame ▸ hb) hagain (engineStep_same_core he hsame).1 hleft
      have hpaid : Reaches 0 s r := reaches_turn (agent := .host) hread (by rw [hturns, hleft])
      exact ⟨u, Nat.zero_add 1 ▸ hpaid.trans hu, hsha, hpoll⟩

/-- POLL ends after the engine's steps, whatever the turns, and finds the core they leave. -/
theorem reaches_poll {d : Nat} (hi : s.Inv) (hf : s.sha.fault = none) (hp : s.pending = .poll :: rest)
    (he : engineSteps d s = .next e) (hb : e.sha.busy = false) :
    ∃ u, Reaches (d + 1) s u ∧ u.sha = e.sha ∧ u.pending = rest ∧ u.rdata = some (statusWord e.sha) := by
  induction d generalizing s e with
  | zero =>
    cases he
    exact ⟨_, reaches_step ((step_idle_cons hf hb hp).trans (hostStep_poll_idle hf hb)) rfl, rfl, rfl, rfl⟩
  | succ d ih =>
    obtain ⟨t, ht, hrest⟩ := exists_first_engineStep he
    obtain ⟨u, hu, hsha, hpoll⟩ := reaches_engineStep hf (busy_of_engineStep hi ht) hp ht
    have hlive : u.sha.fault = none := hsha ▸ (engineStep_fault ht).trans hf
    obtain ⟨v, hv, hcore, hpend, hrdata⟩ := ih (hu.inv hi) hlive hpoll (engineSteps_same_core hrest hsha) hb
    exact ⟨v, (hu.trans hv).mono (by omega), hcore, hpend, hrdata⟩

/-- The engine alone finishes the compression: 64 - n round steps and the final step. -/
theorem exists_engineSteps_end {n : Counter} {d : Nat} (hi : s.Inv) (hf : s.sha.fault = none)
    (hb : s.sha.busy = true) (hn : s.sha.t = some n) (hd : n.toNat + d = 64) :
    ∃ e, engineSteps (d + 1) s = .next e ∧ e.sha.busy = false ∧ e.sha.hvalid = true := by
  induction d generalizing s n with
  | zero =>
    obtain ⟨-, hvalid, -⟩ := (ShaState.inv_running hb).mp hi
    obtain ⟨t, ht⟩ := exists_engineStep hi hf hb
    obtain ⟨hlt, -⟩ | ⟨-, hidle, hkept⟩ := (engineMoves_of_engineStep ht).1.at_counter hn
    · omega
    · exact ⟨t, engineSteps_cons 0 ht, hidle, hkept.trans hvalid⟩
  | succ d ih =>
    obtain ⟨t, ht⟩ := exists_engineStep hi hf hb
    obtain ⟨hmoves, -⟩ := engineMoves_of_engineStep ht
    obtain ⟨hlt, hbusy, hcount⟩ | ⟨rfl, -⟩ := hmoves.at_counter hn
    · have hsucc : (n + 1#7).toNat = n.toNat + 1 := by bv_omega
      rw [engineSteps_cons (d + 1) ht]
      exact ih (hmoves.inv hb hi) ((engineStep_fault ht).trans hf) (hbusy.trans hb) hcount (by omega)
    · simp at hd

/-! ### The lines of the digest procedure -/

section
variable {h : Vector Word 8} {m : Vector Word 16}

theorem ldblkLines_eq : ldblkLines m = (List.finRange 16).map fun j => .tx (encode (.wrBlk j m[j])) := rfl

theorem reaches_blockWrites (js : List (Fin 16)) (hf : s.sha.fault = none) (hb : s.sha.busy = false)
    (hp : s.pending = (js.map fun j => .tx (encode (.wrBlk j m[j]))) ++ rest) :
    ∃ u, Reaches js.length s u ∧ u.sha = s.sha.writeBlk m js ∧ u.pending = rest := by
  induction js generalizing s with
  | nil => exact ⟨s, .refl s, rfl, hp⟩
  | cons j js ih =>
    obtain ⟨t, ht, hset, hpend, -⟩ := reaches_op hf hb hp (.wrBlk s.sha j m[j])
    obtain ⟨u, hu, hsha, hpend⟩ := ih (hset ▸ hf) (hset ▸ hb) hpend
    exact ⟨u, (ht.trans hu).mono (by simp [Nat.add_comm]), hsha.trans (by rw [hset, ShaState.writeBlk]), hpend⟩

/-- RDDIGEST gives the host the words of HASH, in order, and nothing after them. -/
theorem reaches_hashReads (is : List (Fin 8)) (hs : s.sha.Ready h)
    (hp : s.pending = (is.map fun i => .tx (encode (.rdHash i 0#32))) ++ rest) :
    ∃ u, Reaches is.length s u ∧ u.sha = s.sha ∧ u.pending = rest ∧
      u.received = s.received ++ is.map fun i => h[i] := by
  induction is generalizing s with
  | nil => exact ⟨s, .refl s, rfl, hp, (List.append_nil _).symm⟩
  | cons i is ih =>
    have hword : s.sha.hash[i] = some h[i] := hs.hash_eq ▸ written_get h i.val i.isLt
    obtain ⟨t, ht, hsame, hpend, hgiven⟩ := reaches_op hs.live hs.idle hp (.rdHash s.sha i 0#32 h[i] hs.valid hword)
    obtain ⟨u, hu, hsha, hpend, hreceived⟩ := ih (hsame ▸ hs) hpend
    exact ⟨u, (ht.trans hu).mono (by simp [Nat.add_comm]), hsha.trans hsame, hpend, by simp [hreceived, hgiven]⟩

/-- BLOCK: sixteen writes, the accept step, the engine's 65 steps and the last read of STATUS. -/
theorem reaches_block (hi : s.Inv) (hs : s.sha.Ready h) (hp : s.pending = blockLines m ++ rest) :
    ∃ u, Reaches (16 + 1 + 65 + 1) s u ∧ u.sha = s.sha.afterBlock h m ∧ u.pending = rest := by
  rw [blockLines, List.append_assoc, ldblkLines_eq] at hp
  obtain ⟨t, ht, hblk, hpend⟩ := reaches_blockWrites (m := m) _ hs.live hs.idle hp
  rw [ShaState.writeBlk_all] at hblk
  have hready : t.sha.Ready h := hblk ▸ ⟨hs.live, hs.idle, hs.valid, hs.hash_eq⟩
  have hm : t.sha.blk = written m := hblk ▸ rfl
  obtain ⟨t', ht', haccept, hpend, -⟩ :=
    reaches_op hready.live hready.idle hpend (performs_compress hready.valid hm)
  have hstart := haccept.trans (t.sha.accept_eq_afterRounds h m hready.hash_eq hm)
  have hengine := engineSteps_compress (c := t.sha.accept) hready.live hready.hash_eq hstart
  obtain ⟨u, hu, hsha, hpend, -⟩ := reaches_poll ((ht.trans ht').inv hi) (haccept ▸ hready.live) hpend hengine rfl
  refine ⟨u, ((ht.trans ht').trans hu).mono (by simp), ?_, hpend⟩
  rw [hsha, hblk, ShaState.afterBlock]

theorem reaches_blocks (blocks : List (Vector Word 16)) (hi : s.Inv) (hs : s.sha.Ready h)
    (hp : s.pending = blocks.flatMap (fun m => expand (.block m)) ++ rest) :
    ∃ u, Reaches ((16 + 1 + 65 + 1) * blocks.length) s u ∧ u.sha.Ready (chain h blocks) ∧ u.pending = rest := by
  induction blocks generalizing s h with
  | nil => exact ⟨s, .refl s, hs, hp⟩
  | cons m blocks ih =>
    rw [List.flatMap_cons, List.append_assoc] at hp
    obtain ⟨t, ht, hsha, hpend⟩ := reaches_block hi hs hp
    obtain ⟨u, hu, hready, hpend'⟩ := ih (ht.inv hi) (hsha ▸ hs.afterBlock m) hpend
    exact ⟨u, (ht.trans hu).mono (by rw [List.length_cons]; omega), hready, hpend'⟩

end

/-- The digest procedure from an idle core: INIT, every block, and the eight reads. -/
theorem reaches_digest (blocks : List (Vector Word 16)) (hi : s.Inv) (hf : s.sha.fault = none)
    (hb : s.sha.busy = false) (hp : s.pending = digestLines blocks ++ rest) :
    ∃ u, Reaches (1 + (16 + 1 + 65 + 1) * blocks.length + 8) s u ∧ u.sha.Ready (chain H0 blocks) ∧
      u.pending = rest ∧ digestWords u.received = some (chain H0 blocks) := by
  rw [digestLines, List.append_assoc, List.append_assoc] at hp
  obtain ⟨s', hs', hinit, hpend, -⟩ := reaches_op hf hb hp (.init s.sha)
  obtain ⟨t, ht, hready, hpend⟩ := reaches_blocks blocks (hs'.inv hi) (hinit ▸ ShaState.ready_loadH0 hf hb) hpend
  obtain ⟨u, hu, hsha, hpend', hreceived⟩ := reaches_hashReads (List.finRange 8) hready hpend
  refine ⟨u, ((hs'.trans ht).trans hu).mono (by simp), hsha ▸ hready, hpend', ?_⟩
  rw [hreceived]
  exact digestWords_append _ _

end Sys2Proof.Machine
end

section
/-! PROOFS. The statements about runs under every order of turns: POLL, the digest procedure and Digest itself
(20_memory.md R61, 44_host_procedure.md R177). -/

namespace Sys2Proof.Machine

/-- STATUS as the host reads it when a compression has ended. -/
theorem statusWord_done {c : ShaState} (hb : c.busy = false) (hv : c.hvalid = true) : statusWord c = 2#32 := by
  rw [statusWord, hb, hv]
  rfl

/-- Settles O43: the engine alone finishes in 65 - n steps, and POLL only puts reads of STATUS between them. -/
theorem pollFindsTheFinishedCompression : Obligations.PollFindsTheFinishedCompression := by
  intro s n rest hi hf hb hn hp
  obtain ⟨n', hn', hle⟩ := ShaState.exists_counter hb hi
  obtain rfl : n = n' := Option.some.inj (hn.symm.trans hn')
  obtain ⟨e, he, hidle, hvalid⟩ := exists_engineSteps_end hi hf hb hn (Nat.add_sub_of_le hle)
  obtain ⟨u, ⟨k, -, hrun⟩, hsha, hpend, hrdata⟩ := reaches_poll hi hf hp he hidle
  have hcount : 65 - n.toNat = 64 - n.toNat + 1 := by omega
  rw [statusWord_done hidle hvalid] at hrdata
  exact ⟨k, e, u, hcount ▸ he, hrun, hsha, hsha ▸ hidle, hpend, hrdata⟩

/-- Settles O45: the lines of the procedure are followed one after another, with any number of reads of STATUS in each
POLL. -/
theorem digestProcedureChains : Obligations.DigestProcedureChains := by
  intro s blocks rest hi hf hb hp
  obtain ⟨u, ⟨k, -, hrun⟩, hready, hpend, hwords⟩ := reaches_digest blocks hi hf hb hp
  exact ⟨k, u, hrun, hready.live, hready.idle, hpend, fun i => hready.hash_eq ▸ written_get _ i.val i.isLt, hwords⟩

/-- Settles O56: the program ends within the steps `digestOnCore` allows, and the steps left over change nothing. -/
theorem digestRunsOnTheCore : Obligations.DigestRunsOnTheCore := by
  intro units s hi hf hb
  unfold digestOnCore digest
  cases messageBlocks units with
  | none => rfl
  | some blocks =>
    obtain ⟨u, hu, hready, hpend, hwords⟩ := reaches_digest (s := { s with pending := digestLines blocks })
      blocks hi hf hb (List.append_nil _).symm
    have hend : u.successfulEnd := ⟨hready.live, hready.idle, hpend⟩
    have hrun : core.run (digestSteps blocks s.turns) { s with pending := digestLines blocks } = .next u :=
      hu.run_eq hend
    simp only [hrun, if_pos hend, hwords, Option.map_some]

end Sys2Proof.Machine
end

section
/-! SUPPORT. The host's side of the procedure: sums in any order, the padding's length, the digest's characters and the
bytes of a packed word (40_arith.md R102, 44_host_procedure.md R171-R178, 20_memory.md R57). -/

namespace Sys2Proof.Machine

/-! ### Sums (40_arith.md R102) -/

theorem toNat_sum32 (xs : List Word) : (sum32 xs).toNat = (xs.map BitVec.toNat).sum % 2 ^ 32 := by
  induction xs with
  | nil => rfl
  | cons x xs ih => rw [sum32_cons, BitVec.toNat_add, ih, List.map_cons, List.sum_cons, Nat.add_mod_mod]

/-! ### The padding (R173-R175) -/

theorem padZeros_le (len : Nat) : padZeros len ≤ 63 := by
  rw [padZeros]
  omega

theorem padZeros_eq_emod (len : Nat) : (padZeros len : Int) = (55 - (len : Int)) % 64 := by
  rw [padZeros]
  omega

theorem length_pad (b : List Byte) : (pad b).length = b.length + 1 + padZeros b.length + 8 := by
  simp only [pad, be64, List.length_append, List.length_singleton, List.length_replicate, List.length_map,
    List.length_range]

theorem length_pad_eq_blocks (b : List Byte) : (pad b).length = 64 * blockCount b.length := by
  rw [length_pad, padZeros, blockCount]
  omega

/-! ### The digest (R171, R172, R178) -/

theorem hexDigit_mem (n : Nat) : hexDigit n ∈ "0123456789abcdef".toList := by
  rw [hexDigit, List.getD_eq_getElem?_getD]
  cases h : "0123456789abcdef".toList[n]? with
  | none => decide
  | some c => exact List.mem_of_getElem? h

theorem formatDigest_mem {d : Vector Word 8} {c : Char} (hc : c ∈ formatDigest d) :
    c ∈ "0123456789abcdef".toList := by
  obtain ⟨i, -, hword⟩ := List.mem_flatMap.mp hc
  obtain ⟨k, -, rfl⟩ := List.mem_map.mp hword
  exact hexDigit_mem _

theorem length_formatDigest (d : Vector Word 8) : (formatDigest d).length = 64 := by
  simp [formatDigest, formatWord, List.length_flatMap]

/-- The host procedure refuses a text for a code unit or for its length, and for nothing else. -/
theorem messageBlocks_eq_none_iff (units : List Nat) :
    messageBlocks units = none ↔ (∃ c ∈ units, 0xFF < c) ∨ 2 ^ 29 - 1 < units.length := by
  unfold messageBlocks encodeText
  by_cases hunits : units.all (· ≤ 0xFF) = true
  · have hsmall : ¬ ∃ c ∈ units, 0xFF < c := by simpa using hunits
    simp [hunits, hsmall, maxMsgBytes]
  · have hlarge : ∃ c ∈ units, 0xFF < c := by simpa using hunits
    simp [hunits, hlarge]

/-! ### Bytes (20_memory.md R57) -/

theorem toNat_packBE (b0 b1 b2 b3 : Byte) :
    (packBE b0 b1 b2 b3).toNat = b0.toNat * 2 ^ 24 + b1.toNat * 2 ^ 16 + b2.toNat * 2 ^ 8 + b3.toNat := by
  have happend : ∀ {n : Nat} (x : BitVec n) (y : Byte), (x ++ y).toNat = x.toNat * 2 ^ 8 + y.toNat := fun x y => by
    rw [BitVec.toNat_append, Nat.shiftLeft_eq, Nat.mul_comm, Nat.two_pow_add_eq_or_of_lt y.isLt]
  rw [packBE, happend, happend, happend]
  ring

theorem toNat_wordByte (x : Word) (k : Nat) : (wordByte x k).toNat = x.toNat / 2 ^ (24 - 8 * k) % 2 ^ 8 := by
  rw [wordByte, BitVec.extractLsb'_toNat, Nat.shiftRight_eq_div_pow]

theorem wordByte_packBE (b : Fin 4 → Byte) (k : Fin 4) : wordByte (packBE (b 0) (b 1) (b 2) (b 3)) k.val = b k := by
  apply BitVec.eq_of_toNat_eq
  rw [toNat_wordByte, toNat_packBE]
  have h0 := (b 0).isLt
  have h1 := (b 1).isLt
  have h2 := (b 2).isLt
  have h3 := (b 3).isLt
  fin_cases k <;> simp <;> omega

end Sys2Proof.Machine
end

section
/-! PROOFS. The remaining statements: sums, padding and digest of the host, reset, the block buffer, and a platform's
cores (40_arith.md R102, 44_host_procedure.md R171-R178, 10_state.md R37, 20_memory.md R57, 60_exceptions.md R211). -/

namespace Sys2Proof.Machine

/-- Settles O47: the chain's value is the exact sum modulo 2^32, and a sum of numbers does not see their order. -/
theorem sumInAnyOrder : Obligations.SumInAnyOrder := by
  refine ⟨toNat_sum32, fun xs ys hperm => BitVec.eq_of_toNat_eq ?_⟩
  rw [toNat_sum32, toNat_sum32, (hperm.map BitVec.toNat).sum_eq]

/-- Settles O53: z is chosen so that L + 1 + z + 8 is a multiple of 64. -/
theorem paddingFillsWholeBlocks : Obligations.PaddingFillsWholeBlocks := fun b =>
  ⟨padZeros_eq_emod b.length, padZeros_le b.length, by simp [pad], length_pad b,
    ⟨blockCount b.length, length_pad_eq_blocks b⟩, length_pad_eq_blocks b⟩

/-- Settles O54: a digest is eight words of eight digits, and it is refused where the message has no blocks. -/
theorem digestShape : Obligations.DigestShape := by
  intro units
  refine ⟨fun d hd => ?_, ?_⟩
  · obtain ⟨blocks, -, rfl⟩ := Option.map_eq_some_iff.mp hd
    exact ⟨length_formatDigest _, fun c => formatDigest_mem⟩
  · rw [digest, Option.map_eq_none_iff, messageBlocks_eq_none_iff]

/-- Settles O1: each word is decoded. -/
theorem writtenOutWordsDecode : Obligations.WrittenOutWordsDecode := by
  unfold Obligations.WrittenOutWordsDecode
  decide

/-- Settles O8: after reset HVALID = 0 with HASH empty, and the engine is idle with nothing in it. -/
theorem resetMeetsTheInvariant : Obligations.ResetMeetsTheInvariant :=
  (ShaState.inv_idle rfl).mpr ⟨rfl, rfl, rfl, rfl⟩

/-- Settles O7: the components are the values of reset, and the reads of empty registers fault by their own rules. -/
theorem resetValues : Obligations.ResetValues := by
  refine ⟨fun i => unwritten_get i.val i.isLt, rfl, fun i => unwritten_get i.val i.isLt,
    fun j => unwritten_get j.val j.isLt, fun j => unwritten_get j.val j.isLt, rfl, rfl, rfl, by decide,
    fun i x => ⟨_, (rdHashReturnsTheWord State.reset i x rfl).2.1 rfl rfl⟩,
    fun j x => ⟨_, (rdBlkReturnsTheWord State.reset j x rfl).2.1 rfl (unwritten_get j.val j.isLt)⟩, rfl, rfl⟩

/-- Settles O24: the write's effect is one word of BLK, and the read finds it there. -/
theorem blkReadsBackTheLastWrite : Obligations.BlkReadsBackTheLastWrite := by
  intro s j x y hf hb
  have hset : (s.sha.setBlk j x).blk[j] = some x := Vector.getElem_set_self ..
  refine ⟨_, _, exec_of_performs hf hb (.wrBlk s.sha j x), exec_of_performs hf hb (.rdBlk _ j y x hset), rfl,
    fun k hk => ?_⟩
  exact Vector.getElem_set_ne j.isLt k.isLt fun hjk => hk (Fin.ext hjk.symm)

/-- Settles O52: appending bytes multiplies by 2^8, and dividing takes them out again. -/
theorem packedBytesComeBack : Obligations.PackedBytesComeBack := fun b =>
  ⟨toNat_packBE .., wordByte_packBE b⟩

/-- Settles O55: a platform's step writes one entry of its list of cores. -/
theorem instancesShareNothing : Obligations.InstancesShareNothing := by
  intro k cores cores' h
  unfold Platform.step at h
  split at h
  next => cases h
  next s hs =>
    split at h
    next t ht =>
      obtain rfl := Option.some.inj h
      obtain ⟨hk, -⟩ := List.getElem?_eq_some_iff.mp hs
      exact ⟨⟨s, t, hs, ht, List.getElem?_set_self hk⟩, fun j hj => List.getElem?_set_ne hj.symm⟩
    next => cases h
    next => cases h

end Sys2Proof.Machine
end
